-- ==== Sys2Proof/Word.lean ====
section
/-! DEFINITION. The widths of spec/00_scope.md R9: bytes, 16-bit words, 12-bit addresses, and the index of one of
the sixteen general registers. -/

namespace Sys2Proof

/-- An 8-bit value: a general register, a timer, a byte of memory (R9: V_WIDTH, TIMER_WIDTH). -/
abbrev Byte := BitVec 8

/-- A 16-bit value: an instruction word, `pc`, `I`, a stack entry (R9: PC_WIDTH, I_WIDTH, STACK_ENTRY_WIDTH). -/
abbrev Word := BitVec 16

/-- The 12-bit immediate address `nnn` of an instruction word (R101). -/
abbrev Addr12 := BitVec 12

/-- The index of a general register, V0 to VF (R31: every index 0..15 is valid). -/
abbrev Reg := Fin 16

/-- The flag register VF is general register 15 (R9 FLAG_REG, R33). -/
abbrev VF : Reg := 15

end Sys2Proof
end

