-- ==== Sys2Proof/Config.lean ====
section
/-! DEFINITION. What one built machine fixes (spec/00_scope.md R10: six open parameters), and the free values: what the
spec leaves unspecified after a MemoryOutOfBounds raised inside an instruction (spec/60_exceptions.md R269). -/

namespace Sys2Proof

/-- SHIFT_SOURCE (R10, D5): which register 8XY6 and 8XYE shift. -/
inductive ShiftSource where
  | X
  | Y
  deriving DecidableEq, Repr

/-- FLAG_ORDER (R10, R181, D6): which of result and flag is written last. It matters only when x = 15. -/
inductive FlagOrder where
  | flagLast
  | resultLast
  deriving DecidableEq, Repr

/-- STACK_DEPTH (R10, R39, D13): the capacity of the call stack. -/
inductive StackDepth where
  | bounded (entries : Nat)
  | unbounded
  deriving DecidableEq, Repr

/-- The configuration of a machine (R10). `glyphs` is GLYPHS, digit by digit: byte k of digit d is `glyphs[d][k]`
(R76: 16 symbols of 5 bytes). -/
structure Config where
  stackDepth : StackDepth
  shiftSource : ShiftSource
  flagOrder : FlagOrder
  lenientDecode : Bool
  keySkips : Bool
  glyphs : Vector (Vector Byte 5) 16
  deriving DecidableEq, Repr

/-! ## Free values

R269: after a MemoryOutOfBounds raised by DXYN, FX55 or FX65, "the other components of the state are unspecified". Each
of them takes a value of one of these constants, which have no body: nothing can be proved of their values. Their
argument is the number of the draw (State's counter `draws`), so that two draws are unrelated.
Log entry 3. -/

/-- The general registers after draw k. -/
opaque Config.freeV : Nat → Vector Byte 16

/-- The index register after draw k. -/
opaque Config.freeI : Nat → Word

/-- The program counter after draw k. -/
opaque Config.freePc : Nat → Word

/-- The call stack after draw k, before it is cut to the capacity of the machine (R40: SP never exceeds STACK_DEPTH). -/
opaque Config.freeStack : Nat → List Word

/-- The delay timer after draw k. -/
opaque Config.freeDT : Nat → Byte

/-- The sound timer after draw k. -/
opaque Config.freeST : Nat → Byte

/-- The byte at address a after draw k (arguments k, a). -/
opaque Config.freeMem : Nat → Nat → Byte

/-- The display after draw k. -/
opaque Config.freeDisp : Nat → Vector (Vector Bool 64) 32

/-- The key latch after draw k. -/
opaque Config.freeKey : Nat → Option (Fin 16)

end Sys2Proof
end

