-- ==== Sys2Proof/Syntax.lean ====
section
/-! DEFINITION. The instruction set of spec/30_encoding.md R112: one constructor per row of spec/opcode_table.json. -/

namespace Sys2Proof

/-- An instruction, one constructor per row of R112, in the table's order.

`cls`, `ret`, `seReg` and `sneReg` carry, beside their operands, the field of the word that selects nothing (R110: x in
family 0, n in families 5 and 9). It is no operand and takes no part in execution (R104); it is kept because the
error StackUnderflow carries the raw word (R262), and WellFormed demands that it is 0 under strict decode. -/
inductive Instr where
  /-- CLS: 0x0?E0, the unused field x last (R141). -/
  | cls (unused : Fin 16)
  /-- RET: 0x0?EE (R142). -/
  | ret (unused : Fin 16)
  /-- JP nnn: 0x1nnn (R143). -/
  | jp (nnn : Addr12)
  /-- CALL nnn: 0x2nnn (R144). -/
  | call (nnn : Addr12)
  /-- SE Vx, nn: 0x3xnn (R161). -/
  | seImm (x : Reg) (nn : Byte)
  /-- SNE Vx, nn: 0x4xnn (R162). -/
  | sneImm (x : Reg) (nn : Byte)
  /-- SE Vx, Vy: 0x5xy? (R163). -/
  | seReg (x y : Reg) (unused : Fin 16)
  /-- LD Vx, nn: 0x6xnn (R182). -/
  | ldImm (x : Reg) (nn : Byte)
  /-- ADD Vx, nn: 0x7xnn (R183). -/
  | addImm (x : Reg) (nn : Byte)
  /-- LD Vx, Vy: 0x8xy0 (R184). -/
  | ldReg (x y : Reg)
  /-- OR Vx, Vy: 0x8xy1 (R185). -/
  | orReg (x y : Reg)
  /-- AND Vx, Vy: 0x8xy2 (R186). -/
  | andReg (x y : Reg)
  /-- XOR Vx, Vy: 0x8xy3 (R187). -/
  | xorReg (x y : Reg)
  /-- ADD Vx, Vy: 0x8xy4 (R188). -/
  | addReg (x y : Reg)
  /-- SUB Vx, Vy: 0x8xy5 (R189). -/
  | subReg (x y : Reg)
  /-- SHR Vx, Vy: 0x8xy6 (R190). -/
  | shrReg (x y : Reg)
  /-- SUBN Vx, Vy: 0x8xy7 (R191). -/
  | subnReg (x y : Reg)
  /-- SHL Vx, Vy: 0x8xyE (R192). -/
  | shlReg (x y : Reg)
  /-- SNE Vx, Vy: 0x9xy? (R164). -/
  | sneReg (x y : Reg) (unused : Fin 16)
  /-- LD I, nnn: 0xAnnn (R220). -/
  | ldI (nnn : Addr12)
  /-- DRW Vx, Vy, n: 0xDxyn, n the number of rows (R221). -/
  | drw (x y : Reg) (n : Fin 16)
  /-- SKP Vx: 0xEx9E, only when KEY_SKIPS (R165). -/
  | skp (x : Reg)
  /-- SKNP Vx: 0xExA1, only when KEY_SKIPS (R166). -/
  | sknp (x : Reg)
  /-- LD Vx, DT: 0xFx07 (R240). -/
  | ldVxDT (x : Reg)
  /-- LD DT, Vx: 0xFx15 (R241). -/
  | ldDTVx (x : Reg)
  /-- LD [I], Vx: 0xFx55 (R242). -/
  | dump (x : Reg)
  /-- LD Vx, [I]: 0xFx65 (R243). -/
  | load (x : Reg)
  deriving DecidableEq, Repr

end Sys2Proof
end

