-- ==== Sys2Proof/WellFormed.lean ====
section
/-! DEFINITION. Which instructions a machine of a given configuration has (spec/30_encoding.md R110, R112). -/

namespace Sys2Proof

/-- R110: a field that selects nothing must be 0, unless LENIENT_DECODE. -/
def Config.admitsUnused (cfg : Config) (field : Fin 16) : Bool :=
  cfg.lenientDecode || field == 0

/-- The instructions a machine built with `cfg` has: the unused fields are 0 under strict decode (R110), and the key
skips exist only when KEY_SKIPS is true (R112, R165, R166). The operands themselves are in range by their types. -/
def Instr.wf (cfg : Config) : Instr → Bool
  | .cls u => cfg.admitsUnused u
  | .ret u => cfg.admitsUnused u
  | .jp _ => true
  | .call _ => true
  | .seImm _ _ => true
  | .sneImm _ _ => true
  | .seReg _ _ u => cfg.admitsUnused u
  | .ldImm _ _ => true
  | .addImm _ _ => true
  | .ldReg _ _ => true
  | .orReg _ _ => true
  | .andReg _ _ => true
  | .xorReg _ _ => true
  | .addReg _ _ => true
  | .subReg _ _ => true
  | .shrReg _ _ => true
  | .subnReg _ _ => true
  | .shlReg _ _ => true
  | .sneReg _ _ u => cfg.admitsUnused u
  | .ldI _ => true
  | .drw _ _ _ => true
  | .skp _ => cfg.keySkips
  | .sknp _ => cfg.keySkips
  | .ldVxDT _ => true
  | .ldDTVx _ => true
  | .dump _ => true
  | .load _ => true

end Sys2Proof
end

