-- ==== Sys2Proof/Decode.lean ====
section
/-! DEFINITION. The Decoder of spec/30_encoding.md: the field split (R101), the dispatch of R111, decoding of bytes, the
encoder (R112 read from instruction to word), the mask and match table of R112, and the assembler form (R115). -/

namespace Sys2Proof

/-! ## The field split -/

/-- The six fields of an instruction word (R101). -/
structure Fields where
  w : BitVec 4
  x : BitVec 4
  y : BitVec 4
  n : BitVec 4
  nn : Byte
  nnn : Addr12
  deriving DecidableEq, Repr

/-- R101: wiring only, total on any 16-bit word (R102). -/
def splitFields (ins : Word) : Fields where
  w := ins.extractLsb' 12 4
  x := ins.extractLsb' 8 4
  y := ins.extractLsb' 4 4
  n := ins.extractLsb' 0 4
  nn := ins.extractLsb' 0 8
  nnn := ins.extractLsb' 0 12

/-! ## Classification -/

/-- Why bytes are no instruction. -/
inductive DecodeError where
  /-- Fewer than two bytes: every instruction is two bytes long (R100). -/
  | truncated
  /-- The word matches no row under the configuration (R113). -/
  | unsupported (ins : Word)
  deriving DecidableEq, Repr

/-- Family 0, second dispatch on nn. -/
def classifyFamily0 (f : Fields) : Option Instr :=
  match f.nn.toNat with
  | 0xE0 => some (.cls f.x.toFin)
  | 0xEE => some (.ret f.x.toFin)
  | _ => none

/-- Family 8, second dispatch on n. -/
def classifyFamily8 (f : Fields) : Option Instr :=
  match f.n.toNat with
  | 0x0 => some (.ldReg f.x.toFin f.y.toFin)
  | 0x1 => some (.orReg f.x.toFin f.y.toFin)
  | 0x2 => some (.andReg f.x.toFin f.y.toFin)
  | 0x3 => some (.xorReg f.x.toFin f.y.toFin)
  | 0x4 => some (.addReg f.x.toFin f.y.toFin)
  | 0x5 => some (.subReg f.x.toFin f.y.toFin)
  | 0x6 => some (.shrReg f.x.toFin f.y.toFin)
  | 0x7 => some (.subnReg f.x.toFin f.y.toFin)
  | 0xE => some (.shlReg f.x.toFin f.y.toFin)
  | _ => none

/-- Family E, second dispatch on nn. That the rows need KEY_SKIPS is Instr.wf's check. -/
def classifyFamilyE (f : Fields) : Option Instr :=
  match f.nn.toNat with
  | 0x9E => some (.skp f.x.toFin)
  | 0xA1 => some (.sknp f.x.toFin)
  | _ => none

/-- Family F, second dispatch on nn. -/
def classifyFamilyF (f : Fields) : Option Instr :=
  match f.nn.toNat with
  | 0x07 => some (.ldVxDT f.x.toFin)
  | 0x15 => some (.ldDTVx f.x.toFin)
  | 0x55 => some (.dump f.x.toFin)
  | 0x65 => some (.load f.x.toFin)
  | _ => none

/-- The opcode map of R111, before the checks that the configuration adds. -/
def classifyFields (f : Fields) : Option Instr :=
  match f.w.toNat with
  | 0x0 => classifyFamily0 f
  | 0x1 => some (.jp f.nnn)
  | 0x2 => some (.call f.nnn)
  | 0x3 => some (.seImm f.x.toFin f.nn)
  | 0x4 => some (.sneImm f.x.toFin f.nn)
  | 0x5 => some (.seReg f.x.toFin f.y.toFin f.n.toFin)
  | 0x6 => some (.ldImm f.x.toFin f.nn)
  | 0x7 => some (.addImm f.x.toFin f.nn)
  | 0x8 => classifyFamily8 f
  | 0x9 => some (.sneReg f.x.toFin f.y.toFin f.n.toFin)
  | 0xA => some (.ldI f.nnn)
  | 0xD => some (.drw f.x.toFin f.y.toFin f.n.toFin)
  | 0xE => classifyFamilyE f
  | 0xF => classifyFamilyF f
  | _ => none

/-- R107: the instruction of a word on a machine built with `cfg`, or the one terminal verdict Unsupported, which carries
the raw word (R113). It reads nothing but the word and the configuration. -/
def classify (cfg : Config) (ins : Word) : Except DecodeError Instr :=
  match classifyFields (splitFields ins) with
  | none => .error (.unsupported ins)
  | some i => if i.wf cfg then .ok i else .error (.unsupported ins)

/-- The big-endian word of two bytes (R72: the byte at the lower address is bits 15..8). -/
def wordOfBytes (hi lo : Byte) : Word := hi ++ lo

/-- Decoding of any bytes: the first instruction and the bytes after it. -/
def decode (cfg : Config) : List Byte → Except DecodeError (Instr × List Byte)
  | hi :: lo :: rest =>
    match classify cfg (wordOfBytes hi lo) with
    | .ok i => .ok (i, rest)
    | .error e => .error e
  | _ => .error .truncated

/-! ## The encoder -/

/-- A nibble of a word from a register index or a count. -/
def nibble (k : Fin 16) : BitVec 4 := BitVec.ofFin k

/-- The word of an instruction, from the patterns of R112. -/
def encode : Instr → Word
  | .cls u => 0x0#4 ++ nibble u ++ 0xE0#8
  | .ret u => 0x0#4 ++ nibble u ++ 0xEE#8
  | .jp nnn => 0x1#4 ++ nnn
  | .call nnn => 0x2#4 ++ nnn
  | .seImm x nn => 0x3#4 ++ nibble x ++ nn
  | .sneImm x nn => 0x4#4 ++ nibble x ++ nn
  | .seReg x y u => 0x5#4 ++ nibble x ++ nibble y ++ nibble u
  | .ldImm x nn => 0x6#4 ++ nibble x ++ nn
  | .addImm x nn => 0x7#4 ++ nibble x ++ nn
  | .ldReg x y => 0x8#4 ++ nibble x ++ nibble y ++ 0x0#4
  | .orReg x y => 0x8#4 ++ nibble x ++ nibble y ++ 0x1#4
  | .andReg x y => 0x8#4 ++ nibble x ++ nibble y ++ 0x2#4
  | .xorReg x y => 0x8#4 ++ nibble x ++ nibble y ++ 0x3#4
  | .addReg x y => 0x8#4 ++ nibble x ++ nibble y ++ 0x4#4
  | .subReg x y => 0x8#4 ++ nibble x ++ nibble y ++ 0x5#4
  | .shrReg x y => 0x8#4 ++ nibble x ++ nibble y ++ 0x6#4
  | .subnReg x y => 0x8#4 ++ nibble x ++ nibble y ++ 0x7#4
  | .shlReg x y => 0x8#4 ++ nibble x ++ nibble y ++ 0xE#4
  | .sneReg x y u => 0x9#4 ++ nibble x ++ nibble y ++ nibble u
  | .ldI nnn => 0xA#4 ++ nnn
  | .drw x y n => 0xD#4 ++ nibble x ++ nibble y ++ nibble n
  | .skp x => 0xE#4 ++ nibble x ++ 0x9E#8
  | .sknp x => 0xE#4 ++ nibble x ++ 0xA1#8
  | .ldVxDT x => 0xF#4 ++ nibble x ++ 0x07#8
  | .ldDTVx x => 0xF#4 ++ nibble x ++ 0x15#8
  | .dump x => 0xF#4 ++ nibble x ++ 0x55#8
  | .load x => 0xF#4 ++ nibble x ++ 0x65#8

/-- The two bytes of a word as memory holds them, the lower address first (R72). -/
def bytesOfWord (ins : Word) : List Byte := [ins.extractLsb' 8 8, ins.extractLsb' 0 8]

/-- The bytes of an instruction. -/
def encodeBytes (i : Instr) : List Byte := bytesOfWord (encode i)

/-! ## The table of R112 -/

/-- A row of R112: its number, and the match and mask columns. -/
structure Row where
  number : Nat
  pattern : Word
  mask : Word
  deriving DecidableEq, Repr

/-- R112: "A word matches row r when (ins & mask_r) == match_r". -/
def Row.accepts (r : Row) (ins : Word) : Bool := (ins &&& r.mask) == r.pattern

/-- The rows of R112 that exist under `cfg`, in order. Under LENIENT_DECODE the mask of rows 1 and 2 is 0xF0FF and
that of rows 7 and 19 is 0xF000; rows 22 and 23 need KEY_SKIPS. -/
def opcodeTable (cfg : Config) : List Row :=
  let flow : Word := if cfg.lenientDecode then 0xF0FF else 0xFFFF
  let skips : Word := if cfg.lenientDecode then 0xF000 else 0xF00F
  [⟨1, 0x00E0, flow⟩, ⟨2, 0x00EE, flow⟩, ⟨3, 0x1000, 0xF000⟩, ⟨4, 0x2000, 0xF000⟩,
   ⟨5, 0x3000, 0xF000⟩, ⟨6, 0x4000, 0xF000⟩, ⟨7, 0x5000, skips⟩, ⟨8, 0x6000, 0xF000⟩, ⟨9, 0x7000, 0xF000⟩]
  ++ [⟨10, 0x8000, 0xF00F⟩, ⟨11, 0x8001, 0xF00F⟩, ⟨12, 0x8002, 0xF00F⟩, ⟨13, 0x8003, 0xF00F⟩, ⟨14, 0x8004, 0xF00F⟩,
      ⟨15, 0x8005, 0xF00F⟩, ⟨16, 0x8006, 0xF00F⟩, ⟨17, 0x8007, 0xF00F⟩, ⟨18, 0x800E, 0xF00F⟩]
  ++ [⟨19, 0x9000, skips⟩, ⟨20, 0xA000, 0xF000⟩, ⟨21, 0xD000, 0xF000⟩]
  ++ (if cfg.keySkips then [⟨22, 0xE09E, 0xF0FF⟩, ⟨23, 0xE0A1, 0xF0FF⟩] else [])
  ++ [⟨24, 0xF007, 0xF0FF⟩, ⟨25, 0xF015, 0xF0FF⟩, ⟨26, 0xF055, 0xF0FF⟩, ⟨27, 0xF065, 0xF0FF⟩]

/-- The row of R112 that an instruction stands in. -/
def Instr.rowNumber : Instr → Nat
  | .cls _ => 1
  | .ret _ => 2
  | .jp _ => 3
  | .call _ => 4
  | .seImm _ _ => 5
  | .sneImm _ _ => 6
  | .seReg _ _ _ => 7
  | .ldImm _ _ => 8
  | .addImm _ _ => 9
  | .ldReg _ _ => 10
  | .orReg _ _ => 11
  | .andReg _ _ => 12
  | .xorReg _ _ => 13
  | .addReg _ _ => 14
  | .subReg _ _ => 15
  | .shrReg _ _ => 16
  | .subnReg _ _ => 17
  | .shlReg _ _ => 18
  | .sneReg _ _ _ => 19
  | .ldI _ => 20
  | .drw _ _ _ => 21
  | .skp _ => 22
  | .sknp _ => 23
  | .ldVxDT _ => 24
  | .ldDTVx _ => 25
  | .dump _ => 26
  | .load _ => 27

/-! ## The assembler form (R115)

Notation only: "the encoding is the normative text". The destination comes first, immediates and addresses are hexadecimal
with a 0x prefix, and the row count of DRW is decimal. -/

/-- A hexadecimal digit. -/
def hexDigit (k : Fin 16) : Char :=
  ['0', '1', '2', '3', '4', '5', '6', '7', '8', '9', 'A', 'B', 'C', 'D', 'E', 'F'].getD k.val '0'

/-- An 8-bit immediate. -/
def asmByte (nn : Byte) : String :=
  "0x" ++ String.ofList [hexDigit (nn.extractLsb' 4 4).toFin, hexDigit (nn.extractLsb' 0 4).toFin]

/-- A 12-bit address. -/
def asmAddr (nnn : Addr12) : String :=
  "0x" ++ String.ofList
    [hexDigit (nnn.extractLsb' 8 4).toFin, hexDigit (nnn.extractLsb' 4 4).toFin, hexDigit (nnn.extractLsb' 0 4).toFin]

/-- A register, V0 to VF. -/
def asmReg (r : Reg) : String := String.ofList ['V', hexDigit r]

/-- The mnemonic column of R112 with its operands. The field that selects nothing is not written. -/
def Instr.assembly : Instr → String
  | .cls _ => "CLS"
  | .ret _ => "RET"
  | .jp nnn => "JP " ++ asmAddr nnn
  | .call nnn => "CALL " ++ asmAddr nnn
  | .seImm x nn => "SE " ++ asmReg x ++ ", " ++ asmByte nn
  | .sneImm x nn => "SNE " ++ asmReg x ++ ", " ++ asmByte nn
  | .seReg x y _ => "SE " ++ asmReg x ++ ", " ++ asmReg y
  | .ldImm x nn => "LD " ++ asmReg x ++ ", " ++ asmByte nn
  | .addImm x nn => "ADD " ++ asmReg x ++ ", " ++ asmByte nn
  | .ldReg x y => "LD " ++ asmReg x ++ ", " ++ asmReg y
  | .orReg x y => "OR " ++ asmReg x ++ ", " ++ asmReg y
  | .andReg x y => "AND " ++ asmReg x ++ ", " ++ asmReg y
  | .xorReg x y => "XOR " ++ asmReg x ++ ", " ++ asmReg y
  | .addReg x y => "ADD " ++ asmReg x ++ ", " ++ asmReg y
  | .subReg x y => "SUB " ++ asmReg x ++ ", " ++ asmReg y
  | .shrReg x y => "SHR " ++ asmReg x ++ ", " ++ asmReg y
  | .subnReg x y => "SUBN " ++ asmReg x ++ ", " ++ asmReg y
  | .shlReg x y => "SHL " ++ asmReg x ++ ", " ++ asmReg y
  | .sneReg x y _ => "SNE " ++ asmReg x ++ ", " ++ asmReg y
  | .ldI nnn => "LD I, " ++ asmAddr nnn
  | .drw x y n => "DRW " ++ asmReg x ++ ", " ++ asmReg y ++ ", " ++ toString n.val
  | .skp x => "SKP " ++ asmReg x
  | .sknp x => "SKNP " ++ asmReg x
  | .ldVxDT x => "LD " ++ asmReg x ++ ", DT"
  | .ldDTVx x => "LD DT, " ++ asmReg x
  | .dump x => "LD [I], " ++ asmReg x
  | .load x => "LD " ++ asmReg x ++ ", [I]"

/-! ## A word of the table, for the host -/

/-- The configuration in which the rows of spec/opcode_table.json that a word can select exist: `cfg`, with KEY_SKIPS
switched on if the word is one of rows 22 and 23, which "exist only when KEY_SKIPS is true" (R112). Log entry 4. -/
def Config.forTableWord (cfg : Config) (ins : Word) : Config :=
  match classifyFields (splitFields ins) with
  | some (.skp _) => { cfg with keySkips := true }
  | some (.sknp _) => { cfg with keySkips := true }
  | _ => cfg

/-- The word that `nbits` bits of the table's numbering stand for: bit 0 is the least significant bit of the (one and
only) word, and every bit from nbits up is 0. -/
def tableWord (nbits w : Nat) : Word := BitVec.ofNat 16 (w % 2 ^ nbits)

/-- What the decoder reads from the bytes of a table word, at R10's defaults but for KEY_SKIPS where the row needs it. -/
def decodeTableWord (nbits w : Nat) : Option Instr :=
  match decode (Config.specDefaults.forTableWord (tableWord nbits w)) (bytesOfWord (tableWord nbits w)) with
  | .ok (i, _) => some i
  | .error _ => none

end Sys2Proof
end

