-- ==== Sys2Proof/Machine/State.lean ====
section
/-! DEFINITION. The state of the core (spec/10_state.md R30), the errors it reports (spec/60_exceptions.md R260), why a
step can stop, and the state after `initialize()` (spec/70_reset_and_hazards.md R310). -/

namespace Sys2Proof.Machine

/-- The errors an entry point reports to the host, each with the information it carries (R260). -/
inductive Error where
  /-- R265: loadImage with address + length > 4096. -/
  | imageTooLarge (address length : Nat)
  /-- R262: RET on an empty stack; carries the instruction word. -/
  | stackUnderflow (ins : Word)
  /-- R261: a word that matches no instruction; carries the raw word. -/
  | unsupportedOpcode (ins : Word)
  /-- R263: CALL on a full stack; carries the instruction word. -/
  | stackOverflow (ins : Word)
  /-- R264: a byte access by the core at an address of 4096 or more. -/
  | memoryOutOfBounds (address : Nat)
  /-- R266: the host's `get` outside the grid. -/
  | displayOutOfBounds (row col : Nat)
  deriving DecidableEq, Repr

/-- Memory: the bytes that differ from what `initialize()` puts at their address, as (address, byte) pairs of strictly
rising address (R45, R78; the canonical form is `Memory.wf`). -/
abbrev Memory := List Host.Cell

/-- The display (R43): row by row, 32 rows of 64 cells, true = lit. -/
abbrev Display := Vector (Vector Bool 64) 32

/-- Why a step stops. -/
inductive Fault where
  /-- Raised by step and by every host call but `initialize()` on a halted machine (R269: it "has no further step").
  Safe: the spec gives the machine no behaviour there. -/
  | halted
  deriving DecidableEq, Repr

/-- Why an instruction is refused. -/
inductive Refusal where
  /-- Raised by exec for an instruction that has no meaning yet, by its name. Safe: a refusal proves nothing of the
  hardware. No arm of this model raises it. -/
  | notModelled (mnemonic : String)
  deriving DecidableEq, Repr

/-- The state: R30's record, the two components of bookkeeping that R47 adds, and two fields of the model's own.
`V`, `I`, `DT`, `ST` keep the manual's names. -/
structure State where
  /-- The general registers V0 to VF (R31). -/
  V : Vector Byte 16
  /-- The index register (R35). -/
  I : Word
  /-- The program counter (R36). -/
  pc : Word
  /-- The call stack, the top entry first; SP is its length (R39, R40). -/
  stack : List Word
  /-- The delay timer (R41). -/
  DT : Byte
  /-- The sound timer (R42). -/
  ST : Byte
  /-- The 4096 bytes of memory (R45). -/
  mem : Memory
  /-- The display (R43). -/
  disp : Display
  /-- The key latch (R46). -/
  key : Option (Fin 16)
  /-- The errors that `cycle()` has reported, oldest first (R47). -/
  faults : List Error
  /-- Whether a MemoryOutOfBounds has occurred (R47). -/
  halted : Bool
  /-- The model's own field: the configuration the machine is built with (R10), an input and no state (R30). No step and
  no host call changes it. Log entry 1. -/
  cfg : Config
  /-- The model's own field: how many times the unspecified components of R269 have been drawn. Log entry 3. -/
  draws : Nat
  deriving DecidableEq, Repr

/-- R310: the state after `initialize()` of a machine built with `cfg`. Memory lists nothing: an unlisted address reads as
what `initialize()` puts there (`Memory.unlisted`). -/
def State.resetWith (cfg : Config) : State where
  V := Vector.replicate 16 0
  I := 0
  pc := 0x200
  stack := []
  DT := 0
  ST := 0
  mem := []
  disp := Vector.replicate 32 (Vector.replicate 64 false)
  key := none
  faults := []
  halted := false
  cfg := cfg
  draws := 0

/-- R310 at the default configuration of R10. -/
def State.reset : State := State.resetWith Config.specDefaults

end Sys2Proof.Machine
end

