-- ==== Sys2Proof/Machine/Ops.lean ====
section
/-! DEFINITION. The named operations over memory, registers, stack and display (spec/00_scope.md R13), the fetch
(spec/20_memory.md R72), and taking an error (spec/60_exceptions.md R268, R269). -/

namespace Sys2Proof.Machine

/-- The outcome of running an instruction or a cycle. -/
abbrev Result := Host.Outcome State Fault Refusal

/-! ## Memory as data -/

/-- MEM_SIZE (R9). -/
abbrev memSize : Nat := 4096

/-- GLYPH_BASE (R9). -/
abbrev glyphBase : Nat := 0x50

/-- What an unlisted address reads as: what `initialize()` puts there (R78, R310). The glyph table stands at 0x050, digit d
at 0x050 + 5·d (R76, R77); every other byte is 0. -/
def Memory.unlisted (glyphs : Vector (Vector Byte 5) 16) (a : Nat) : Byte :=
  if h : glyphBase ≤ a ∧ a < glyphBase + 80 then
    (glyphs[(a - glyphBase) / 5]'(by omega))[(a - glyphBase) % 5]'(by omega)
  else 0

/-- The byte listed at an address. -/
def Memory.lookup : Memory → Nat → Option Byte
  | [], _ => none
  | (b, v) :: m, a => if a = b then some v else Memory.lookup m a

/-- List a byte at an address, keeping the addresses rising. -/
def Memory.insertCell : Memory → Nat → Byte → Memory
  | [], a, v => [(a, v)]
  | (b, w) :: m, a, v =>
    if a < b then (a, v) :: (b, w) :: m
    else if a = b then (a, v) :: m
    else (b, w) :: Memory.insertCell m a v

/-- Unlist an address, wherever it is listed. -/
def Memory.eraseCell : Memory → Nat → Memory
  | [], _ => []
  | (b, w) :: m, a => if a = b then Memory.eraseCell m a else (b, w) :: Memory.eraseCell m a

/-- The byte at an address. -/
def Memory.read (glyphs : Vector (Vector Byte 5) 16) (m : Memory) (a : Nat) : Byte :=
  (Memory.lookup m a).getD (Memory.unlisted glyphs a)

/-- Memory with byte v at address a. -/
def Memory.write (glyphs : Vector (Vector Byte 5) 16) (m : Memory) (a : Nat) (v : Byte) : Memory :=
  if v = Memory.unlisted glyphs a then Memory.eraseCell m a else Memory.insertCell m a v

/-- Every listed address is above `low`, they rise strictly, all lie inside memory, and no entry equals what an unlisted
address reads as. -/
def Memory.wfFrom (glyphs : Vector (Vector Byte 5) 16) : Nat → Memory → Bool
  | _, [] => true
  | low, (a, v) :: m =>
    decide (low ≤ a) && decide (a < memSize) && decide (v ≠ Memory.unlisted glyphs a) && Memory.wfFrom glyphs (a + 1) m

/-- The canonical form of memory. -/
def Memory.wf (glyphs : Vector (Vector Byte 5) 16) (m : Memory) : Bool := Memory.wfFrom glyphs 0 m

/-- The memory that holds f a at every address a. -/
def Memory.ofContents (glyphs : Vector (Vector Byte 5) 16) (f : Nat → Byte) : Memory :=
  (List.range memSize).foldl (fun m a => Memory.write glyphs m a (f a)) []

/-! ## Reading and writing the state (R13) -/

/-- The byte of memory at an address, for an address inside memory. -/
def State.byteAt (s : State) (a : Nat) : Byte := Memory.read s.cfg.glyphs s.mem a

/-- MemRead(a, 1) (R71): an address of 4096 or more raises MemoryOutOfBounds and is not accessed. -/
def State.memRead (s : State) (a : Nat) : Except Error Byte :=
  if a < memSize then .ok (s.byteAt a) else .error (.memoryOutOfBounds a)

/-- MemWrite(a, 1, v) (R71). No part of memory is write-protected (R80). -/
def State.memWrite (s : State) (a : Nat) (v : Byte) : Except Error State :=
  if a < memSize then .ok { s with mem := Memory.write s.cfg.glyphs s.mem a v } else .error (.memoryOutOfBounds a)

/-- Bytes placed verbatim from an address up, as `loadImage` places them (R286); a byte whose address is outside memory is
not stored. -/
def State.pokeBytes (s : State) (a : Nat) : List Byte → State
  | [] => s
  | v :: vs =>
    if a < memSize then
      State.pokeBytes { s with mem := Memory.write s.cfg.glyphs s.mem a v } (a + 1) vs
    else s

/-- Fetch16(p) (R72): two bytes, big-endian, at any alignment (R73). -/
def State.fetch16 (s : State) (p : Nat) : Except Error Word :=
  match s.memRead p with
  | .error e => .error e
  | .ok hi =>
    match s.memRead (p + 1) with
    | .error e => .error e
    | .ok lo => .ok (wordOfBytes hi lo)

/-- V[r] (R31). -/
def State.reg (s : State) (r : Reg) : Byte := s.V[r]

/-- V[r] <- v. No register is hardwired (R31). -/
def State.setReg (s : State) (r : Reg) (v : Byte) : State := { s with V := s.V.set r v }

/-- I <- v. -/
def State.setI (s : State) (v : Word) : State := { s with I := v }

/-- DT <- v. -/
def State.setDT (s : State) (v : Byte) : State := { s with DT := v }

/-- pc <- target. -/
def State.setPc (s : State) (target : Word) : State := { s with pc := target }

/-- pc <- pc + 2: the fetch advance (R117), and what a skip adds (R160). The sum never wraps in a reachable state (R38). -/
def State.advancePc (s : State) : State := s.setPc (s.pc + 2)

/-- skip_if(cond) (R160). -/
def State.skipIf (s : State) (cond : Bool) : State := if cond then s.advancePc else s

/-! ## The call stack (R39, R40) -/

/-- Whether a stack of n entries is full (R40); never when STACK_DEPTH = UNBOUNDED. -/
def stackFull (depth : StackDepth) (n : Nat) : Bool :=
  match depth with
  | .bounded d => decide (d ≤ n)
  | .unbounded => false

/-- A stack cut to the capacity. -/
def clipStack (depth : StackDepth) (st : List Word) : List Word :=
  match depth with
  | .bounded d => st.take d
  | .unbounded => st

/-- push(v), for a stack that is not full. -/
def State.push (s : State) (v : Word) : State := { s with stack := v :: s.stack }

/-- pop(): the top entry and the state without it; none when SP = 0. -/
def State.pop (s : State) : Option (Word × State) :=
  match s.stack with
  | [] => none
  | top :: rest => some (top, { s with stack := rest })

/-! ## The display (R43, R44) -/

/-- Pixel(row, col). -/
def Display.pixel (d : Display) (row : Fin 32) (col : Fin 64) : Bool := d[row][col]

/-- Toggle(row, col). -/
def Display.toggle (d : Display) (row : Fin 32) (col : Fin 64) : Display :=
  d.set row (d[row].set col (!Display.pixel d row col))

/-- Every cell 0. -/
def Display.blank : Display := Vector.replicate 32 (Vector.replicate 64 false)

/-- Pixel(row, col) of the state's display. -/
def State.pixel (s : State) (row : Fin 32) (col : Fin 64) : Bool := Display.pixel s.disp row col

/-- ClearDisplay(). -/
def State.clearDisplay (s : State) : State := { s with disp := Display.blank }

/-! ## Taking an error

R271: the core has no vector, no saved status and no handler; an error is the report to the host and the entry of
`faults`. There is no return from one: the host calls `cycle()` again (R272). -/

/-- R260's numbers, the spec's labels (D28). -/
def Error.code : Error → Nat
  | .imageTooLarge _ _ => 1
  | .stackUnderflow _ => 2
  | .unsupportedOpcode _ => 3
  | .stackOverflow _ => 4
  | .memoryOutOfBounds _ => 5
  | .displayOutOfBounds _ _ => 6

/-- R268: the error is appended to `faults`, and nothing else changes (the fetch advance stands). -/
def State.report (s : State) (e : Error) : State := { s with faults := s.faults ++ [e] }

/-- R269, a fault on fetch: the error is appended to `faults` and `halted` becomes true; nothing else changes. -/
def State.haltOnFetch (s : State) (e : Error) : State := { s.report e with halted := true }

/-- R269, a fault inside DXYN, FX55 or FX65: the error is appended to `faults`, `halted` becomes true, and the other
components are unspecified: each is a free value (log entry 3), inside the limits the spec sets (the stack's capacity, R40;
the 4096 addresses of memory). -/
def State.haltInside (s : State) (e : Error) : State where
  V := Config.freeV s.draws
  I := Config.freeI s.draws
  pc := Config.freePc s.draws
  stack := clipStack s.cfg.stackDepth (Config.freeStack s.draws)
  DT := Config.freeDT s.draws
  ST := Config.freeST s.draws
  mem := Memory.ofContents s.cfg.glyphs (Config.freeMem s.draws)
  disp := Config.freeDisp s.draws
  key := Config.freeKey s.draws
  faults := s.faults ++ [e]
  halted := true
  cfg := s.cfg
  draws := s.draws + 1

end Sys2Proof.Machine
end

