-- ==== Sys2Proof/Machine/Flags.lean ====
section
/-! DEFINITION. The 8-bit results and the flags of the ALU (spec/42_alu.md R180 to R193), and the one write of a result
and its flag (R181). -/

namespace Sys2Proof.Machine

/-- A flag as the byte that VF takes. -/
def flagByte (f : Bool) : Byte := if f then 1 else 0

/-- R183, R188: (a + b) mod 256. -/
def addResult (a b : Byte) : Byte := BitVec.ofNat 8 (a.toNat + b.toNat)

/-- R188: 1 if the unsigned sum exceeds 255. -/
def addFlag (a b : Byte) : Bool := decide (255 < a.toNat + b.toNat)

/-- R189, R191: (a - b) mod 256. -/
def subResult (a b : Byte) : Byte := BitVec.ofInt 8 (a.toNat - b.toNat)

/-- R189, R191: 1 if a ≥ b, no borrow. -/
def subFlag (a b : Byte) : Bool := decide (b.toNat ≤ a.toNat)

/-- R190: s >> 1. -/
def shrResult (a : Byte) : Byte := a >>> 1

/-- R190: the low bit of the source before shifting. -/
def shrFlag (a : Byte) : Bool := a.getLsbD 0

/-- R192: (s << 1) mod 256. -/
def shlResult (a : Byte) : Byte := a <<< 1

/-- R192: the high bit of the source before shifting. -/
def shlFlag (a : Byte) : Bool := a.getLsbD 7

/-- write_rf(r, f) (R181): the result to V[x] and the flag to VF, in the order FLAG_ORDER gives. -/
def State.writeResultFlag (s : State) (x : Reg) (r : Byte) (f : Bool) : State :=
  match s.cfg.flagOrder with
  | .flagLast => (s.setReg x r).setReg VF (flagByte f)
  | .resultLast => (s.setReg VF (flagByte f)).setReg x r

end Sys2Proof.Machine
end

