-- ==== Sys2Proof/Machine/Operands.lean ====
section
/-! DEFINITION. Operand forms (spec/30_encoding.md R103): registers and immediates as they are, zero-extended addresses,
the block at I, the source of a shift, the start of a sprite. -/

namespace Sys2Proof.Machine

/-- R103: nnn zero-extended to 16 bits, as written to pc and I. -/
def addr16 (nnn : Addr12) : Word := nnn.setWidth 16

/-- The address of byte k of the block at I: the unbounded sum (R225, R242, R243). -/
def State.indexed (s : State) (k : Nat) : Nat := s.I.toNat + k

/-- The value that 8XY6 and 8XYE shift (R190, R192): V[y] when SHIFT_SOURCE = Y, else V[x]. -/
def State.shiftOperand (s : State) (x y : Reg) : Byte :=
  match s.cfg.shiftSource with
  | .Y => s.reg y
  | .X => s.reg x

/-- The start column of a sprite: V[x] mod 64 (R221, R222). -/
def State.spriteX (s : State) (x : Reg) : Nat := (s.reg x).toNat % 64

/-- The start row of a sprite: V[y], not masked (R221, R223). -/
def State.spriteY (s : State) (y : Reg) : Nat := (s.reg y).toNat

/-- The registers in the order of their indexes. -/
def allRegs : List Reg := [0, 1, 2, 3, 4, 5, 6, 7, 8, 9, 10, 11, 12, 13, 14, 15]

/-- V0..=Vx, inclusive of Vx (R242, R243). -/
def regsUpTo (x : Reg) : List Reg := allRegs.take (x.val + 1)

end Sys2Proof.Machine
end

