-- ==== Sys2Proof/Machine/Alu.lean ====
section
/-! DEFINITION. Register loads and the 8-bit ALU (spec/42_alu.md R180 to R193). Every operand is read from the state before
any register is written (R180). -/

namespace Sys2Proof.Machine

/-- LD Vx, nn (R182). -/
def execLdImm (x : Reg) (nn : Byte) (s : State) : Result := .next (s.setReg x nn)

/-- ADD Vx, nn (R183): no flag effect. -/
def execAddImm (x : Reg) (nn : Byte) (s : State) : Result := .next (s.setReg x (addResult (s.reg x) nn))

/-- LD Vx, Vy (R184). -/
def execLdReg (x y : Reg) (s : State) : Result := .next (s.setReg x (s.reg y))

/-- OR Vx, Vy (R185). -/
def execOrReg (x y : Reg) (s : State) : Result := .next (s.setReg x (s.reg x ||| s.reg y))

/-- AND Vx, Vy (R186). -/
def execAndReg (x y : Reg) (s : State) : Result := .next (s.setReg x (s.reg x &&& s.reg y))

/-- XOR Vx, Vy (R187). -/
def execXorReg (x y : Reg) (s : State) : Result := .next (s.setReg x (s.reg x ^^^ s.reg y))

/-- ADD Vx, Vy (R188). -/
def execAddReg (x y : Reg) (s : State) : Result :=
  .next (s.writeResultFlag x (addResult (s.reg x) (s.reg y)) (addFlag (s.reg x) (s.reg y)))

/-- SUB Vx, Vy (R189): Vx - Vy. -/
def execSubReg (x y : Reg) (s : State) : Result :=
  .next (s.writeResultFlag x (subResult (s.reg x) (s.reg y)) (subFlag (s.reg x) (s.reg y)))

/-- SHR Vx, Vy (R190). -/
def execShrReg (x y : Reg) (s : State) : Result :=
  .next (s.writeResultFlag x (shrResult (s.shiftOperand x y)) (shrFlag (s.shiftOperand x y)))

/-- SUBN Vx, Vy (R191): Vy - Vx. -/
def execSubnReg (x y : Reg) (s : State) : Result :=
  .next (s.writeResultFlag x (subResult (s.reg y) (s.reg x)) (subFlag (s.reg y) (s.reg x)))

/-- SHL Vx, Vy (R192). -/
def execShlReg (x y : Reg) (s : State) : Result :=
  .next (s.writeResultFlag x (shlResult (s.shiftOperand x y)) (shlFlag (s.shiftOperand x y)))

end Sys2Proof.Machine
end

