-- ==== Sys2Proof/Machine/Draw.lean ====
section
/-! DEFINITION. Set index and draw sprite (spec/43_index_and_draw.md R220 to R226). -/

namespace Sys2Proof.Machine

/-- LD I, nnn (R220). -/
def execLdI (nnn : Addr12) (s : State) : Result := .next (s.setI (addr16 nnn))

/-- R221: bit 7 - col of a sprite row, bit 7 the leftmost (R225). -/
def spriteBit (row : Byte) (col : Nat) : Bool := row.getLsbD (7 - col)

/-- R221's inner loop, over the columns still to come. A clear bit is passed over; a set bit at column 64 or more stops
the row (R222); any other set bit records a collision (R224) and toggles its cell. -/
def drawColumns (row : Byte) (x0 : Nat) (y : Fin 32) : List Nat → Display → Bool → Display × Bool
  | [], d, hit => (d, hit)
  | col :: cols, d, hit =>
    if spriteBit row col then
      if h : x0 + col < 64 then
        drawColumns row x0 y cols (Display.toggle d y ⟨x0 + col, h⟩) (hit || Display.pixel d y ⟨x0 + col, h⟩)
      else (d, hit)
    else drawColumns row x0 y cols d hit

/-- The display row of sprite row k: (y0 + k) mod 32 (R223). -/
def spriteRow (y0 k : Nat) : Fin 32 := ⟨(y0 + k) % 32, Nat.mod_lt _ (by decide)⟩

/-- R221's outer loop, over the sprite rows still to come. Each row is read before any pixel of it (R225). -/
def drawRows (s : State) (x0 y0 : Nat) : List Nat → Display → Bool → Except Error (Display × Bool)
  | [], d, hit => .ok (d, hit)
  | k :: ks, d, hit =>
    match s.memRead (s.indexed k) with
    | .error e => .error e
    | .ok row =>
      let drawn := drawColumns row x0 (spriteRow y0 k) (List.range 8) d hit
      drawRows s x0 y0 ks drawn.1 drawn.2

/-- DRW Vx, Vy, n (R221): x0 and y0 are read before VF is cleared, VF ends as the collision flag (R224), and a sprite row
outside memory halts the machine (R225, R269). -/
def execDrw (x y : Reg) (n : Fin 16) (s : State) : Result :=
  match drawRows s (s.spriteX x) (s.spriteY y) (List.range n.val) s.disp false with
  | .error e => .next (s.haltInside e)
  | .ok (d, hit) => .next { s.setReg VF (flagByte hit) with disp := d }

end Sys2Proof.Machine
end

