-- ==== Sys2Proof/Machine/Flow.lean ====
section
/-! DEFINITION. Clear screen, jump, call and return (spec/40_screen_and_flow.md). Each meaning starts after the fetch
advance: pc is the instruction's address + 2 (R315). -/

namespace Sys2Proof.Machine

/-- CLS (R141). -/
def execCls (s : State) : Result := .next s.clearDisplay

/-- RET (R142): pop the return address; on an empty stack report StackUnderflow with the instruction word (R262, R268). -/
def execRet (unused : Fin 16) (s : State) : Result :=
  match s.pop with
  | none => .next (s.report (.stackUnderflow (encode (.ret unused))))
  | some (top, s') => .next (s'.setPc top)

/-- JP nnn (R143). -/
def execJp (nnn : Addr12) (s : State) : Result := .next (s.setPc (addr16 nnn))

/-- CALL nnn (R144): push the advanced pc and jump; on a full stack report StackOverflow with the instruction word (R263,
R268). -/
def execCall (nnn : Addr12) (s : State) : Result :=
  if stackFull s.cfg.stackDepth s.stack.length then .next (s.report (.stackOverflow (encode (.call nnn))))
  else .next ((s.push s.pc).setPc (addr16 nnn))

end Sys2Proof.Machine
end

