-- ==== Sys2Proof/Machine/Skips.lean ====
section
/-! DEFINITION. The conditional skips (spec/41_skips.md R160 to R166). -/

namespace Sys2Proof.Machine

/-- SE Vx, nn (R161). -/
def execSeImm (x : Reg) (nn : Byte) (s : State) : Result := .next (s.skipIf (s.reg x == nn))

/-- SNE Vx, nn (R162). -/
def execSneImm (x : Reg) (nn : Byte) (s : State) : Result := .next (s.skipIf (s.reg x != nn))

/-- SE Vx, Vy (R163). -/
def execSeReg (x y : Reg) (s : State) : Result := .next (s.skipIf (s.reg x == s.reg y))

/-- SNE Vx, Vy (R164). -/
def execSneReg (x y : Reg) (s : State) : Result := .next (s.skipIf (s.reg x != s.reg y))

/-- Whether the latch holds the key whose number is v: key = some(v) (R165). A v above 15 is no key (D21). -/
def State.keyIs (s : State) (v : Byte) : Bool :=
  match s.key with
  | none => false
  | some k => k.val == v.toNat

/-- SKP Vx (R165). -/
def execSkp (x : Reg) (s : State) : Result := .next (s.skipIf (s.keyIs (s.reg x)))

/-- SKNP Vx (R166). -/
def execSknp (x : Reg) (s : State) : Result := .next (s.skipIf (!s.keyIs (s.reg x)))

end Sys2Proof.Machine
end

