-- ==== Sys2Proof/Machine/Transfer.lean ====
section
/-! DEFINITION. Delay timer access and register dump and load (spec/44_timer_and_transfer.md R240 to R243). -/

namespace Sys2Proof.Machine

/-- LD Vx, DT (R240). -/
def execLdVxDT (x : Reg) (s : State) : Result := .next (s.setReg x s.DT)

/-- LD DT, Vx (R241). -/
def execLdDTVx (x : Reg) (s : State) : Result := .next (s.setDT (s.reg x))

/-- R242's loop: MemWrite(I + i, 1, V[i]) for each register, in order. -/
def storeRegs : List Reg → State → Except Error State
  | [], s => .ok s
  | r :: rs, s =>
    match s.memWrite (s.indexed r.val) (s.reg r) with
    | .error e => .error e
    | .ok s' => storeRegs rs s'

/-- R243's loop: V[i] <- MemRead(I + i, 1) for each register, in order. -/
def loadRegs : List Reg → State → Except Error State
  | [], s => .ok s
  | r :: rs, s =>
    match s.memRead (s.indexed r.val) with
    | .error e => .error e
    | .ok v => loadRegs rs (s.setReg r v)

/-- LD [I], Vx (R242): I is not modified (D10); an address outside memory halts the machine (R269). -/
def execDump (x : Reg) (s : State) : Result :=
  match storeRegs (regsUpTo x) s with
  | .error e => .next (s.haltInside e)
  | .ok s' => .next s'

/-- LD Vx, [I] (R243): I is not modified (D10); an address outside memory halts the machine (R269). -/
def execLoad (x : Reg) (s : State) : Result :=
  match loadRegs (regsUpTo x) s with
  | .error e => .next (s.haltInside e)
  | .ok s' => .next s'

end Sys2Proof.Machine
end

