-- ==== Sys2Proof/Machine/Step.lean ====
section
/-! DEFINITION. One step of the machine: one `cycle()` call (spec/30_encoding.md R117), and a word stored where the step
fetches. -/

namespace Sys2Proof.Machine

/-- `cycle()` (R117): on a halted machine no step (R269); else fetch, advance pc by 2, classify and execute. A fetch out of
bounds is reported first and leaves pc (R270, R269); then an Unsupported word, with pc advanced (R261, R268). -/
def step (s : State) : Host.Outcome State Fault Refusal :=
  if s.halted then .fault .halted
  else
    match s.fetch16 s.pc.toNat with
    | .error e => .next (s.haltOnFetch e)
    | .ok ins =>
      match classify s.cfg ins with
      | .error _ => .next (s.advancePc.report (.unsupportedOpcode ins))
      | .ok i => exec i s.advancePc

/-- The state with a word of the opcode table (its bits numbered as the table numbers them) at pc, high byte first (R72),
on a machine that has the row of that word (`Config.forTableWord`, log entry 4). A byte whose address is outside memory is
not stored. -/
def State.withFetchWord (s : State) (nbits w : Nat) : State :=
  let bytes := bytesOfWord (tableWord nbits w)
  let stored := s.pokeBytes s.pc.toNat bytes
  { stored with cfg := s.cfg.forTableWord (tableWord nbits w) }

end Sys2Proof.Machine
end

