-- ==== Sys2Proof/Machine/EntryPoints.lean ====
section
/-! DEFINITION. The host's entry points (spec/60_exceptions.md R284) and runs: finite and infinite sequences of host calls, each
one atomic transition of the state (R81, R288). -/

namespace Sys2Proof.Machine

/-- What a host call returns. -/
inductive Reply where
  | ok
  | bit (b : Bool)
  | error (e : Error)
  deriving DecidableEq, Repr

/-- A call of an entry point (R284), with its inputs. -/
inductive HostCall where
  | init
  | loadImage (bytes : List Byte) (address : Nat)
  | cycle
  | decrementTimers (amount : Nat)
  | setInputKey (key : Option (Fin 16))
  | get (row col : Nat)
  deriving DecidableEq, Repr

/-- `initialize()` (R285, R310): every component as after reset. The configuration is no state and stays (R312), and so does
the count of draws, so that later draws are new ones. -/
def State.init (s : State) : State := { State.resetWith s.cfg with draws := s.draws }

/-- `loadImage(bytes, address)` (R286): ImageTooLarge leaves memory unchanged and is not appended to `faults`. -/
def State.loadImage (s : State) (bytes : List Byte) (address : Nat) : State × Reply :=
  if memSize < address + bytes.length then (s, .error (.imageTooLarge address bytes.length))
  else (s.pokeBytes address bytes, .ok)

/-- A timer lowered by `amount`, saturating at 0 (R277). -/
def decrementTimer (t : Byte) (amount : Nat) : Byte :=
  if amount ≤ t.toNat then BitVec.ofNat 8 (t.toNat - amount) else 0

/-- `decrementTimers(amount)` (R277). -/
def State.decrementTimers (s : State) (amount : Nat) : State :=
  { s with DT := decrementTimer s.DT amount, ST := decrementTimer s.ST amount }

/-- `setInputKey(key)` (R283). -/
def State.setInputKey (s : State) (key : Option (Fin 16)) : State := { s with key := key }

/-- `get(row, col)` (R281); out of range it is DisplayOutOfBounds (R266). It changes no state. -/
def State.get (s : State) (row col : Nat) : Reply :=
  if h : row < 32 ∧ col < 64 then .bit (s.pixel ⟨row, h.1⟩ ⟨col, h.2⟩)
  else .error (.displayOutOfBounds row col)

/-- What `cycle()` returns (R287): the one error it appended to `faults`, or ok. -/
def cycleReply (before after : State) : Reply :=
  match after.faults.drop before.faults.length with
  | [] => .ok
  | e :: _ => .error e

/-- `cycle()` with its reply. -/
def State.cycle (s : State) : Host.Outcome (State × Reply) Fault Refusal :=
  match step s with
  | .next t => .next (t, cycleReply s t)
  | .fault r => .fault r
  | .refused r => .refused r

/-- One host call. A halted machine has no step for any call but `initialize()` (R269). -/
def hostCall (c : HostCall) (s : State) : Host.Outcome (State × Reply) Fault Refusal :=
  match c with
  | .init => .next (s.init, .ok)
  | .cycle => s.cycle
  | .loadImage bytes address => if s.halted then .fault .halted else .next (s.loadImage bytes address)
  | .decrementTimers amount => if s.halted then .fault .halted else .next (s.decrementTimers amount, .ok)
  | .setInputKey key => if s.halted then .fault .halted else .next (s.setInputKey key, .ok)
  | .get row col => if s.halted then .fault .halted else .next (s, s.get row col)

/-- A finite run: host calls one after another, with their replies in order (R288). -/
def hostRun : List HostCall → State → Host.Outcome (State × List Reply) Fault Refusal
  | [], s => .next (s, [])
  | c :: cs, s =>
    match hostCall c s with
    | .fault r => .fault r
    | .refused r => .refused r
    | .next (t, reply) =>
      match hostRun cs t with
      | .fault r => .fault r
      | .refused r => .refused r
      | .next (u, replies) => .next (u, reply :: replies)

/-- An infinite run (R288): call k takes state k to state k + 1 and returns reply k. -/
def InfiniteRun (calls : Nat → HostCall) (states : Nat → State) (replies : Nat → Reply) : Prop :=
  ∀ k, hostCall (calls k) (states k) = .next (states (k + 1), replies k)

/-- The first k calls, or replies, of an infinite sequence. -/
def firstOf {α : Type} (f : Nat → α) (k : Nat) : List α := (List.range k).map f

end Sys2Proof.Machine
end

