-- ==== Sys2Proof/Safety.lean ====
section
/-! DEFINITION. The terms claims use: which components two states share (frames), what a run without an error is, the end
of a run (spec/70_reset_and_hazards.md R322), the cells a sprite draws (spec/43_index_and_draw.md R221 to R225, said without
the loops), and the invariant of the machine. -/

namespace Sys2Proof.Machine

/-! ## Frames -/

/-- The components of State. -/
inductive Component where
  | V | I | pc | stack | DT | ST | mem | disp | key | faults | halted | cfg | draws
  deriving DecidableEq, Repr

/-- Two states agree on a component. Registers are compared one by one, memory by the byte that every address reads as,
and the display cell by cell. -/
def Same (s t : State) : Component → Prop
  | .V => ∀ r : Reg, t.reg r = s.reg r
  | .I => t.I = s.I
  | .pc => t.pc = s.pc
  | .stack => t.stack = s.stack
  | .DT => t.DT = s.DT
  | .ST => t.ST = s.ST
  | .mem => ∀ a : Nat, t.byteAt a = s.byteAt a
  | .disp => ∀ (row : Fin 32) (col : Fin 64), t.pixel row col = s.pixel row col
  | .key => t.key = s.key
  | .faults => t.faults = s.faults
  | .halted => t.halted = s.halted
  | .cfg => t.cfg = s.cfg
  | .draws => t.draws = s.draws

/-- From s to t nothing changes outside the components named. -/
def Frame (changed : List Component) (s t : State) : Prop :=
  ∀ c : Component, c ∉ changed → Same s t c

/-- From s to t no register changes outside the ones named. -/
def RegFrame (changed : List Reg) (s t : State) : Prop :=
  ∀ r : Reg, r ∉ changed → t.reg r = s.reg r

/-- write_rf(r, f) seen from outside (R181): for x ≠ 15 the result is in V[x] and the flag in VF; for x = 15 VF ends as what
FLAG_ORDER writes last. Nothing else changes. -/
def WroteResultFlag (s t : State) (x : Reg) (r f : Byte) : Prop :=
  (x ≠ VF → t.reg x = r ∧ t.reg VF = f) ∧
  (x = VF → s.cfg.flagOrder = .flagLast → t.reg VF = f) ∧
  (x = VF → s.cfg.flagOrder = .resultLast → t.reg VF = r) ∧
  RegFrame [x, VF] s t ∧ Frame [.V] s t

/-! ## What an instruction names -/

/-- The registers an instruction names or touches implicitly (R32): its x and y, VF for the implicit flag writes of R33, and
V0..=Vx for the bulk transfers. -/
def namedRegs : Instr → List Reg
  | .cls _ => []
  | .ret _ => []
  | .jp _ => []
  | .call _ => []
  | .seImm x _ => [x]
  | .sneImm x _ => [x]
  | .seReg x y _ => [x, y]
  | .ldImm x _ => [x]
  | .addImm x _ => [x]
  | .ldReg x y => [x, y]
  | .orReg x y => [x, y]
  | .andReg x y => [x, y]
  | .xorReg x y => [x, y]
  | .addReg x y => [x, y, VF]
  | .subReg x y => [x, y, VF]
  | .shrReg x y => [x, y, VF]
  | .subnReg x y => [x, y, VF]
  | .shlReg x y => [x, y, VF]
  | .sneReg x y _ => [x, y]
  | .ldI _ => []
  | .drw x y _ => [x, y, VF]
  | .skp x => [x]
  | .sknp x => [x]
  | .ldVxDT x => [x]
  | .ldDTVx x => [x]
  | .dump x => regsUpTo x
  | .load x => regsUpTo x

/-- The registers an instruction may write (R32, R33): its destination, VF where it writes a flag, V0..=Vx for a load. -/
def destRegs : Instr → List Reg
  | .cls _ => []
  | .ret _ => []
  | .jp _ => []
  | .call _ => []
  | .seImm _ _ => []
  | .sneImm _ _ => []
  | .seReg _ _ _ => []
  | .ldImm x _ => [x]
  | .addImm x _ => [x]
  | .ldReg x _ => [x]
  | .orReg x _ => [x]
  | .andReg x _ => [x]
  | .xorReg x _ => [x]
  | .addReg x _ => [x, VF]
  | .subReg x _ => [x, VF]
  | .shrReg x _ => [x, VF]
  | .subnReg x _ => [x, VF]
  | .shlReg x _ => [x, VF]
  | .sneReg _ _ _ => []
  | .ldI _ => []
  | .drw _ _ _ => [VF]
  | .skp _ => []
  | .sknp _ => []
  | .ldVxDT x => [x]
  | .ldDTVx _ => []
  | .dump _ => []
  | .load x => regsUpTo x

/-- The key latch holds the key numbered V[x]: key = some(V[x]) (R165). -/
def KeyPressed (s : State) (x : Reg) : Prop := ∃ k : Fin 16, s.key = some k ∧ k.val = (s.reg x).toNat

/-- The condition of a conditional skip (R161 to R166); every other instruction is none. -/
def IsSkipOn (s : State) : Instr → Prop → Prop
  | .seImm x nn, c => c = (s.reg x = nn)
  | .sneImm x nn, c => c = (s.reg x ≠ nn)
  | .seReg x y _, c => c = (s.reg x = s.reg y)
  | .sneReg x y _, c => c = (s.reg x ≠ s.reg y)
  | .skp x, c => c = KeyPressed s x
  | .sknp x, c => c = ¬ KeyPressed s x
  | .cls _, _ => False
  | .ret _, _ => False
  | .jp _, _ => False
  | .call _, _ => False
  | .ldImm _ _, _ => False
  | .addImm _ _, _ => False
  | .ldReg _ _, _ => False
  | .orReg _ _, _ => False
  | .andReg _ _, _ => False
  | .xorReg _ _, _ => False
  | .addReg _ _, _ => False
  | .subReg _ _, _ => False
  | .shrReg _ _, _ => False
  | .subnReg _ _, _ => False
  | .shlReg _ _, _ => False
  | .ldI _, _ => False
  | .drw _ _ _, _ => False
  | .ldVxDT _, _ => False
  | .ldDTVx _, _ => False
  | .dump _, _ => False
  | .load _, _ => False

/-- The cycle from s fetches instruction i: s is not halted, the fetch at pc succeeds and its word decodes to i. -/
def Fetches (s : State) (i : Instr) : Prop :=
  s.halted = false ∧ ∃ ins : Word, s.fetch16 s.pc.toNat = .ok ins ∧ classify s.cfg ins = .ok i

/-! ## Errors and runs -/

/-- R47's premise of a claim about a program: no error has been reported, and the machine is not halted. -/
def FaultFree (s : State) : Prop := s.faults = [] ∧ s.halted = false

/-- The end of a run (R322): no error, not halted, and the word at pc is a jump to pc. -/
def EndOfRun (s : State) : Prop :=
  FaultFree s ∧ ∃ nnn : Addr12, addr16 nnn = s.pc ∧ s.fetch16 s.pc.toNat = .ok (encode (.jp nnn))

/-- Whether an error is a MemoryOutOfBounds, the one kind that halts the machine (R269). -/
def Error.isOutOfBounds : Error → Bool
  | .memoryOutOfBounds _ => true
  | .imageTooLarge _ _ => false
  | .stackUnderflow _ => false
  | .unsupportedOpcode _ => false
  | .stackOverflow _ => false
  | .displayOutOfBounds _ _ => false

/-! ## The sprite, without loops -/

/-- DRW Vx, Vy, n in state s covers the cell (row, col): some sprite row k < n falls on that display row, (V[y] + k) mod 32
(R223), and some sprite column c < 8 of it, its bit 7 - c set in the byte at I + k (R225), on that display column, V[x] mod 64
+ c, not wrapped (R222). -/
def SpriteCovers (s : State) (x y : Reg) (n : Fin 16) (row : Fin 32) (col : Fin 64) : Prop :=
  ∃ k, k < n.val ∧ ((s.reg y).toNat + k) % 32 = row.val ∧
    ∃ c, c < 8 ∧ (s.reg x).toNat % 64 + c = col.val ∧ (s.byteAt (s.I.toNat + k)).getLsbD (7 - c) = true

/-! ## The invariant -/

/-- The stack holds no more than STACK_DEPTH entries (R40). -/
def StackFits (s : State) : Prop :=
  match s.cfg.stackDepth with
  | .bounded d => s.stack.length ≤ d
  | .unbounded => True

/-- What every host call keeps. Memory is in canonical form; the stack fits (R40); the machine is halted exactly if a
MemoryOutOfBounds has been reported (R47, R269); and while it is not halted, pc is at most 0x1002 (R38), I at most 0x0FFF (R35)
and every return address at most 0x1000 (R38). -/
def Inv (s : State) : Prop :=
  Memory.wf s.cfg.glyphs s.mem = true ∧
  StackFits s ∧
  (s.halted = true ↔ ∃ e ∈ s.faults, e.isOutOfBounds = true) ∧
  (s.halted = false → s.pc.toNat ≤ 0x1002 ∧ s.I.toNat ≤ 0x0FFF ∧ ∀ v ∈ s.stack, v.toNat ≤ 0x1000)

end Sys2Proof.Machine
end

