-- ==== Sys2Proof/Certificates/Slice0/Obligations.lean ====
section
/-! DEFINITION. The statements for the provers. Each docstring names the rules of spec/ it formalises; where a clause rests
on a decision the spec marks as its own (Dn of spec/92_eei_decisions.md) or on an entry of the model's assumption log, it says
so. Statements about a parameter of R10 hold for every value of it, so the defaults D3 to D6, D13 and D16 are not leaned on. -/

open Sys2Proof Sys2Proof.Machine

/-! ## Encoding -/

/-- R101: the six fields are the named bits of the word, and the word is made of them. -/
def Obligations.FieldSplitReadsTheNamedBits : Prop :=
  ∀ ins : Word,
    (splitFields ins).w.toNat = ins.toNat / 4096 ∧
    (splitFields ins).x.toNat = ins.toNat / 256 % 16 ∧
    (splitFields ins).y.toNat = ins.toNat / 16 % 16 ∧
    (splitFields ins).n.toNat = ins.toNat % 16 ∧
    (splitFields ins).nn.toNat = ins.toNat % 256 ∧
    (splitFields ins).nnn.toNat = ins.toNat % 4096 ∧
    (splitFields ins).nn = (splitFields ins).y ++ (splitFields ins).n ∧
    (splitFields ins).nnn = (splitFields ins).x ++ (splitFields ins).y ++ (splitFields ins).n ∧
    ins = (splitFields ins).w ++ (splitFields ins).x ++ (splitFields ins).y ++ (splitFields ins).n

/-- R109's three words and one word of each further family (R18: one value of w) that has an instruction, families 0, 1, 2,
4, 5, 7, 8, 9, D, E and F, written out from the patterns of R112 (the values not shown by the source are D1's, and family E
needs KEY_SKIPS, D4). -/
def Obligations.SampleWordsDecode : Prop :=
  decode Config.specDefaults [0x63, 0x12] = .ok (.ldImm 3 0x12, []) ∧
  decode Config.specDefaults [0xA1, 0x23] = .ok (.ldI 0x123, []) ∧
  decode Config.specDefaults [0x32, 0xFA] = .ok (.seImm 2 0xFA, []) ∧
  decode Config.specDefaults [0x00, 0xE0] = .ok (.cls 0, []) ∧
  decode Config.specDefaults [0x12, 0x34] = .ok (.jp 0x234, []) ∧
  decode Config.specDefaults [0x2A, 0xBC] = .ok (.call 0xABC, []) ∧
  decode Config.specDefaults [0x4F, 0x01] = .ok (.sneImm 15 0x01, []) ∧
  decode Config.specDefaults [0x5A, 0xB0] = .ok (.seReg 10 11 0, []) ∧
  decode Config.specDefaults [0x7E, 0x03] = .ok (.addImm 14 0x03, []) ∧
  decode Config.specDefaults [0x8A, 0xB6] = .ok (.shrReg 10 11, []) ∧
  decode Config.specDefaults [0x9A, 0xB0] = .ok (.sneReg 10 11 0, []) ∧
  decode Config.specDefaults [0xD1, 0x2F] = .ok (.drw 1 2 15, []) ∧
  decode { Config.specDefaults with keySkips := true } [0xE1, 0x9E] = .ok (.skp 1, []) ∧
  decode Config.specDefaults [0xF3, 0x65] = .ok (.load 3, [])

/-- R112, R110 (D1, D3, D4; that the instruction keeps the field that selects nothing is the model's choice, log entry 9): a
well-formed instruction's bytes decode to it, with every operand at every value, whatever follows them; an ill-formed one's
are refused with its word. -/
def Obligations.DecodeInvertsEncode : Prop :=
  ∀ (cfg : Config) (i : Instr) (rest : List Byte),
    (i.wf cfg = true → decode cfg (encodeBytes i ++ rest) = .ok (i, rest)) ∧
    (i.wf cfg = false → decode cfg (encodeBytes i ++ rest) = .error (.unsupported (encode i)))

/-- R107, R110, R112 (D1, D3, D4): bytes that decode to an instruction are that instruction's bytes. Under LENIENT_DECODE
several words select one instruction of the spec (R110: 0x01E0 is CLS too); that they are different values of Instr here, so
that each has its own bytes, is the model's choice, log entry 9: the field that selects nothing is kept. -/
def Obligations.EncodeInvertsDecode : Prop :=
  ∀ (cfg : Config) (bytes rest : List Byte) (i : Instr),
    decode cfg bytes = .ok (i, rest) → i.wf cfg = true ∧ bytes = encodeBytes i ++ rest

/-- R112: the dispatch of R111 and the mask and match table agree. The rows that accept a word are the one row of the
instruction it classifies as, or none where it is Unsupported, so no two rows match the same word. -/
def Obligations.ClassifyFollowsTheOpcodeTable : Prop :=
  ∀ (cfg : Config) (ins : Word),
    (∀ i, classify cfg ins = .ok i →
      ((opcodeTable cfg).filter (fun r => r.accepts ins)).map Row.number = [i.rowNumber]) ∧
    (∀ e, classify cfg ins = .error e →
      e = .unsupported ins ∧ (opcodeTable cfg).filter (fun r => r.accepts ins) = [])

/-- R113 (its list rests on D1 to D4): exactly these words are Unsupported. -/
def Obligations.UnsupportedWordsAreTheListedOnes : Prop :=
  ∀ (cfg : Config) (ins : Word),
    classify cfg ins = .error (.unsupported ins) ↔
      ((splitFields ins).w = 0x0 ∧
        ¬(((splitFields ins).nn = 0xE0 ∨ (splitFields ins).nn = 0xEE) ∧
          (cfg.lenientDecode = true ∨ (splitFields ins).x = 0))) ∨
      (((splitFields ins).w = 0x5 ∨ (splitFields ins).w = 0x9) ∧ cfg.lenientDecode = false ∧ (splitFields ins).n ≠ 0) ∨
      ((splitFields ins).w = 0x8 ∧ (splitFields ins).n ∈ [0x8#4, 0x9#4, 0xA#4, 0xB#4, 0xC#4, 0xD#4, 0xF#4]) ∨
      (splitFields ins).w = 0xB ∨
      (splitFields ins).w = 0xC ∨
      ((splitFields ins).w = 0xE ∧
        ¬(cfg.keySkips = true ∧ ((splitFields ins).nn = 0x9E ∨ (splitFields ins).nn = 0xA1))) ∨
      ((splitFields ins).w = 0xF ∧ (splitFields ins).nn ∉ [0x07#8, 0x15#8, 0x55#8, 0x65#8])

/-! ## The cycle -/

/-- R71, R82 (the bound is D11's): a byte written inside memory is what its address reads as, every other byte stays, and
nothing else changes; an access at 4096 or more is MemoryOutOfBounds. -/
def Obligations.ByteReadsAsLastWritten : Prop :=
  ∀ (s : State) (a : Nat) (v : Byte),
    (a < 4096 → ∃ t, s.memWrite a v = .ok t ∧ t.memRead a = .ok v ∧ (∀ b, b ≠ a → t.memRead b = s.memRead b) ∧
      Frame [.mem] s t) ∧
    (4096 ≤ a → s.memRead a = .error (.memoryOutOfBounds a) ∧ s.memWrite a v = .error (.memoryOutOfBounds a))

/-- R117: when the two bytes at pc decode to i, the step is exec of i on the state whose pc is advanced by 2 and which is
otherwise the same. -/
def Obligations.StepRunsTheDecodedInstruction : Prop :=
  ∀ (s : State) (i : Instr),
    s.halted = false → s.pc.toNat + 1 < 4096 →
    decode s.cfg [s.byteAt s.pc.toNat, s.byteAt (s.pc.toNat + 1)] = .ok (i, []) →
    step s = exec i s.advancePc ∧ s.advancePc.pc = s.pc + 2 ∧ Frame [.pc] s s.advancePc

/-- R72, R73 (the faults beyond memory are D11's, the missing alignment check D12's): the fetch reads two bytes big-endian at
any address, and raises MemoryOutOfBounds with the first address that is outside memory. -/
def Obligations.FetchIsBigEndianAtAnyAddress : Prop :=
  ∀ (s : State) (p : Nat),
    (p + 1 < 4096 →
      ∃ ins, s.fetch16 p = .ok ins ∧ ins.toNat = 256 * (s.byteAt p).toNat + (s.byteAt (p + 1)).toNat) ∧
    (p = 4095 → s.fetch16 p = .error (.memoryOutOfBounds 4096)) ∧
    (4096 ≤ p → s.fetch16 p = .error (.memoryOutOfBounds p))

/-- R264, R269, R270 (D11, D14): a fetch at pc ≥ 0x0FFF halts the machine. The failing address is pc, or 0x1000 when pc =
0x0FFF; pc is not advanced and nothing but `faults` and `halted` changes. -/
def Obligations.FetchOutOfBoundsHalts : Prop :=
  ∀ s : State, s.halted = false → 0x0FFF ≤ s.pc.toNat →
    ∃ t, step s = .next t ∧
      t.faults = s.faults ++ [.memoryOutOfBounds (if s.pc.toNat = 0x0FFF then 0x1000 else s.pc.toNat)] ∧
      t.halted = true ∧ Frame [.faults, .halted] s t

/-- R261, R268 (D14): an Unsupported word is reported with its raw value; pc has advanced by 2 and nothing else has changed. -/
def Obligations.UnsupportedWordIsReported : Prop :=
  ∀ (s : State) (ins : Word),
    s.halted = false → s.fetch16 s.pc.toNat = .ok ins → classify s.cfg ins = .error (.unsupported ins) →
    ∃ t, step s = .next t ∧ t.pc = s.pc + 2 ∧ t.faults = s.faults ++ [.unsupportedOpcode ins] ∧
      Frame [.pc, .faults] s t

/-- R269 (D11, D14; log entry 7): a halted machine has no step, and no host call but `initialize()`: each answers the fault
`halted`. -/
def Obligations.HaltedMachineHasNoStep : Prop :=
  ∀ s : State, s.halted = true →
    step s = .fault .halted ∧ ∀ c : HostCall, c ≠ .init → hostCall c s = .fault .halted

/-- R118 (that an error is recorded in `faults` is D14's): a cycle executes exactly one instruction, the one it fetches,
which reports at most one error; or, if it fetches none, it reports exactly one error and touches nothing but pc, `faults`
and `halted`. No timer is decremented in it: the sound timer stays, and the delay timer changes only as FX15 writes it.
(After a MemoryOutOfBounds inside an instruction the timers are unspecified, R269.) -/
def Obligations.EachCycleExecutesOneInstructionOrReportsOneError : Prop :=
  ∀ s : State, s.halted = false →
    ∃ t, step s = .next t ∧
      ((∃ i, Fetches s i ∧ exec i s.advancePc = .next t ∧ (t.faults = s.faults ∨ ∃ e, t.faults = s.faults ++ [e])) ∨
        ((∀ i, ¬Fetches s i) ∧ (∃ e, t.faults = s.faults ++ [e]) ∧ Frame [.pc, .faults, .halted] s t)) ∧
      (t.halted = false → t.ST = s.ST ∧ (t.DT = s.DT ∨ ∃ x, Fetches s (.ldDTVx x) ∧ t.DT = s.reg x))

/-- R287, R270 (D24; log entry 10): `cycle()` is one step, and returns ok if the step reported nothing and else the one error
it reported. -/
def Obligations.CycleReturnsOkOrItsOneError : Prop :=
  ∀ s : State, s.halted = false →
    ∃ t reply, step s = .next t ∧ hostCall .cycle s = .next (t, reply) ∧
      ((reply = .ok ∧ t.faults = s.faults) ∨ ∃ e, reply = .error e ∧ t.faults = s.faults ++ [e])

/-! ## Clear screen, jump, call and return -/

/-- R141: CLS sets every cell to 0, whatever the display was, and changes nothing else. -/
def Obligations.ClearScreenClearsEveryCell : Prop :=
  ∀ (u : Fin 16) (s : State),
    ∃ t, exec (.cls u) s = .next t ∧ (∀ row col, t.pixel row col = false) ∧ Frame [.disp] s t

/-- R142: RET sets pc to the most recently pushed entry and removes it. -/
def Obligations.ReturnPopsTheTopEntry : Prop :=
  ∀ (u : Fin 16) (s : State) (top : Word) (rest : List Word),
    s.stack = top :: rest →
    ∃ t, exec (.ret u) s = .next t ∧ t.pc = top ∧ t.stack = rest ∧ Frame [.pc, .stack] s t

/-- R262, R268 (D14, D28): RET on an empty stack reports StackUnderflow with the instruction word and changes nothing else. -/
def Obligations.ReturnOnEmptyStackReportsUnderflow : Prop :=
  ∀ (u : Fin 16) (s : State),
    s.stack = [] →
    ∃ t, exec (.ret u) s = .next t ∧ t.faults = s.faults ++ [.stackUnderflow (encode (.ret u))] ∧ Frame [.faults] s t

/-- R143: JP sets pc to exactly nnn, zero-extended. -/
def Obligations.JumpSetsPcExactly : Prop :=
  ∀ (nnn : Addr12) (s : State),
    ∃ t, exec (.jp nnn) s = .next t ∧ t.pc.toNat = nnn.toNat ∧ Frame [.pc] s t

/-- R144: CALL on a stack with room pushes the pc it sees (its address + 2, R315) and sets pc to nnn. -/
def Obligations.CallPushesTheAdvancedPc : Prop :=
  ∀ (nnn : Addr12) (s : State),
    (∀ d, s.cfg.stackDepth = .bounded d → s.stack.length < d) →
    ∃ t, exec (.call nnn) s = .next t ∧ t.stack = s.pc :: s.stack ∧ t.pc.toNat = nnn.toNat ∧ Frame [.pc, .stack] s t

/-- R263, R268 (D13, D14, D28): CALL on a stack of STACK_DEPTH entries reports StackOverflow with the instruction word and
changes nothing else. -/
def Obligations.CallOnFullStackReportsOverflow : Prop :=
  ∀ (nnn : Addr12) (s : State),
    s.cfg.stackDepth = .bounded s.stack.length →
    ∃ t, exec (.call nnn) s = .next t ∧ t.faults = s.faults ++ [.stackOverflow (encode (.call nnn))] ∧ Frame [.faults] s t

/-- R142, R144 with R117: a CALL at pc to a RET resumes after two steps at the instruction following the CALL, with the stack
and everything else as before. -/
def Obligations.CallThenReturnResumesAfterTheCall : Prop :=
  ∀ (nnn : Addr12) (s : State),
    s.halted = false →
    s.fetch16 s.pc.toNat = .ok (encode (.call nnn)) →
    s.fetch16 nnn.toNat = .ok (encode (.ret 0)) →
    (∀ d, s.cfg.stackDepth = .bounded d → s.stack.length < d) →
    ∃ t u, step s = .next t ∧ t.pc.toNat = nnn.toNat ∧ step t = .next u ∧ u.pc = s.pc + 2 ∧ Frame [.pc] s u

/-- R143, R322 (the end of a run is D23's): at the end of a run the step is a jump to itself and changes nothing at all. -/
def Obligations.SelfJumpChangesNothing : Prop :=
  ∀ s : State, EndOfRun s → step s = .next s

/-! ## Conditional skips -/

/-- R161, R162: SE Vx, nn skips if V[x] = nn, SNE Vx, nn if not; neither changes anything but pc. -/
def Obligations.ImmediateSkipsTestTheRegister : Prop :=
  ∀ (x : Reg) (nn : Byte) (s : State),
    (∃ t, exec (.seImm x nn) s = .next t ∧ t.pc = (if s.reg x = nn then s.pc + 2 else s.pc) ∧ Frame [.pc] s t) ∧
    (∃ t, exec (.sneImm x nn) s = .next t ∧ t.pc = (if s.reg x = nn then s.pc else s.pc + 2) ∧ Frame [.pc] s t)

/-- R163, R164: SE Vx, Vy skips if the registers are equal, SNE Vx, Vy if they differ, whatever the unused field. -/
def Obligations.RegisterSkipsCompareTheRegisters : Prop :=
  ∀ (x y : Reg) (u : Fin 16) (s : State),
    (∃ t, exec (.seReg x y u) s = .next t ∧ t.pc = (if s.reg x = s.reg y then s.pc + 2 else s.pc) ∧ Frame [.pc] s t) ∧
    (∃ t, exec (.sneReg x y u) s = .next t ∧ t.pc = (if s.reg x = s.reg y then s.pc else s.pc + 2) ∧ Frame [.pc] s t)

/-- R165, R166 (D4, D21): SKP skips if the latched key is the one numbered V[x], SKNP if not; no key is numbered above 15. -/
def Obligations.KeySkipsTestTheLatch : Prop :=
  ∀ (x : Reg) (s : State),
    (∃ t, exec (.skp x) s = .next t ∧ Frame [.pc] s t ∧
      (KeyPressed s x → t.pc = s.pc + 2) ∧ (¬KeyPressed s x → t.pc = s.pc)) ∧
    (∃ t, exec (.sknp x) s = .next t ∧ Frame [.pc] s t ∧
      (KeyPressed s x → t.pc = s.pc) ∧ (¬KeyPressed s x → t.pc = s.pc + 2)) ∧
    (15 < (s.reg x).toNat → ¬KeyPressed s x)

/-- R160, with the conditions of R161 to R166 (the key skips and their test are D4's and D21's, the faulting fetch D11's): a
cycle that fetches a skip advances pc by 4 exactly when the skip's condition holds, else by 2, whatever the skipped bytes
are; it reports no error and writes nothing else. The resulting pc is at most 0x1002, and above 0x0FFE the next fetch raises
MemoryOutOfBounds. -/
def Obligations.SkipsAdvancePcByFourExactlyWhenTheirConditionHolds : Prop :=
  ∀ (s : State) (i : Instr) (c : Prop),
    Fetches s i → IsSkipOn s i c →
    ∃ t, step s = .next t ∧ (c → t.pc = s.pc + 4) ∧ (¬c → t.pc = s.pc + 2) ∧ Frame [.pc] s t ∧
      t.pc.toNat ≤ 0x1002 ∧
      (0x0FFE < t.pc.toNat → ∃ a, t.fetch16 t.pc.toNat = .error (.memoryOutOfBounds a))

/-! ## Register loads and the ALU -/

/-- R182: LD Vx, nn, encoded 0x6xnn, stores nn in V[x] for every x, VF included, and changes no other register and nothing
else. -/
def Obligations.StoreImmediateWritesOneRegister : Prop :=
  ∀ (x : Reg) (nn : Byte) (s : State),
    (∃ t, exec (.ldImm x nn) s = .next t ∧ t.reg x = nn ∧ RegFrame [x] s t ∧ Frame [.V] s t) ∧
    ∀ cfg, classify cfg (0x6#4 ++ nibble x ++ nn) = .ok (.ldImm x nn)

/-- R183: ADD Vx, nn adds modulo 256 with no flag effect: VF is written only as the destination. -/
def Obligations.AddImmediateWrapsWithoutFlag : Prop :=
  ∀ (x : Reg) (nn : Byte) (s : State),
    ∃ t, exec (.addImm x nn) s = .next t ∧ (t.reg x).toNat = ((s.reg x).toNat + nn.toNat) % 256 ∧
      RegFrame [x] s t ∧ Frame [.V] s t

/-- R183 with R117: two add-immediates to one register, one after the other, add (a + b) modulo 256. -/
def Obligations.TwoAddImmediatesCompose : Prop :=
  ∀ (x : Reg) (a b : Byte) (s : State),
    s.halted = false →
    s.fetch16 s.pc.toNat = .ok (encode (.addImm x a)) →
    s.fetch16 (s.pc.toNat + 2) = .ok (encode (.addImm x b)) →
    ∃ t u, step s = .next t ∧ step t = .next u ∧
      (u.reg x).toNat = ((s.reg x).toNat + a.toNat + b.toNat) % 256 ∧ u.pc = s.pc + 4 ∧
      RegFrame [x] s u ∧ Frame [.V, .pc] s u

/-- R184 to R187 (that they leave VF alone is D9's): assign, OR, AND and XOR write V[x], computed bit by bit from the old
values, and nothing else. -/
def Obligations.AssignAndLogicWriteOnlyTheDestination : Prop :=
  ∀ (x y : Reg) (s : State),
    (∃ t, exec (.ldReg x y) s = .next t ∧ t.reg x = s.reg y ∧ RegFrame [x] s t ∧ Frame [.V] s t) ∧
    (∃ t, exec (.orReg x y) s = .next t ∧
      (∀ k, (t.reg x).getLsbD k = ((s.reg x).getLsbD k || (s.reg y).getLsbD k)) ∧ RegFrame [x] s t ∧ Frame [.V] s t) ∧
    (∃ t, exec (.andReg x y) s = .next t ∧
      (∀ k, (t.reg x).getLsbD k = ((s.reg x).getLsbD k && (s.reg y).getLsbD k)) ∧ RegFrame [x] s t ∧ Frame [.V] s t) ∧
    (∃ t, exec (.xorReg x y) s = .next t ∧
      (∀ k, (t.reg x).getLsbD k = ((s.reg x).getLsbD k ^^ (s.reg y).getLsbD k)) ∧ RegFrame [x] s t ∧ Frame [.V] s t)

/-- R188, R181: ADD Vx, Vy gives the sum modulo 256 and the carry, from the old values. -/
def Obligations.AddSetsTheCarry : Prop :=
  ∀ (x y : Reg) (s : State),
    ∃ t, exec (.addReg x y) s = .next t ∧
      WroteResultFlag s t x (BitVec.ofNat 8 (((s.reg x).toNat + (s.reg y).toNat) % 256))
        (if (s.reg x).toNat + (s.reg y).toNat > 255 then 1 else 0)

/-- R189, R191, R181 (the flag of SUBN is D7's): SUB gives Vx - Vy and SUBN gives Vy - Vx, modulo 256, with flag 1 for no
borrow. -/
def Obligations.SubtractionsSetNoBorrow : Prop :=
  ∀ (x y : Reg) (s : State),
    (∃ t, exec (.subReg x y) s = .next t ∧
      WroteResultFlag s t x (BitVec.ofNat 8 (((s.reg x).toNat + 256 - (s.reg y).toNat) % 256))
        (if (s.reg x).toNat ≥ (s.reg y).toNat then 1 else 0)) ∧
    (∃ t, exec (.subnReg x y) s = .next t ∧
      WroteResultFlag s t x (BitVec.ofNat 8 (((s.reg y).toNat + 256 - (s.reg x).toNat) % 256))
        (if (s.reg y).toNat ≥ (s.reg x).toNat then 1 else 0))

/-- R190, R192, R181 (that SHL is truncated to 8 bits is D8's): the shifts take V[y] or V[x] as SHIFT_SOURCE says, halve or
double it, and set the flag to the bit shifted out. -/
def Obligations.ShiftsSetTheBitShiftedOut : Prop :=
  ∀ (x y : Reg) (s : State) (v : Nat),
    (s.cfg.shiftSource = .Y → v = (s.reg y).toNat) → (s.cfg.shiftSource = .X → v = (s.reg x).toNat) →
    (∃ t, exec (.shrReg x y) s = .next t ∧ WroteResultFlag s t x (BitVec.ofNat 8 (v / 2)) (BitVec.ofNat 8 (v % 2))) ∧
    (∃ t, exec (.shlReg x y) s = .next t ∧
      WroteResultFlag s t x (BitVec.ofNat 8 (2 * v % 256)) (BitVec.ofNat 8 (v / 128)))

/-! ## Set index and draw -/

/-- R220: LD I, nnn, encoded 0xAnnn, sets I to nnn zero-extended and changes nothing else. -/
def Obligations.SetIndexLoadsTheAddress : Prop :=
  ∀ (nnn : Addr12) (s : State),
    (∃ t, exec (.ldI nnn) s = .next t ∧ t.I.toNat = nnn.toNat ∧ Frame [.I] s t) ∧
    ∀ cfg, classify cfg (0xA#4 ++ nnn) = .ok (.ldI nnn)

/-- R222, R223, R224, with the start of the sprite as R221 and its addresses and bits as R225 give them (D11: rows beyond
memory are AccessBeyondMemoryHalts): a draw whose rows all lie in memory inverts exactly the cells the sprite covers, with
columns clipped at 64 and rows wrapped at 32; VF is 1 if and only if some covered cell was 1, and else 0; no other register
and nothing else changes. -/
def Obligations.DrawInvertsTheCoveredCells : Prop :=
  ∀ (x y : Reg) (n : Fin 16) (s : State),
    (∀ k, k < n.val → s.indexed k < 4096) →
    ∃ t, exec (.drw x y n) s = .next t ∧
      (∀ row col, SpriteCovers s x y n row col → t.pixel row col = !s.pixel row col) ∧
      (∀ row col, ¬SpriteCovers s x y n row col → t.pixel row col = s.pixel row col) ∧
      ((∃ row col, SpriteCovers s x y n row col ∧ s.pixel row col = true) → t.reg VF = 1) ∧
      ((¬∃ row col, SpriteCovers s x y n row col ∧ s.pixel row col = true) → t.reg VF = 0) ∧
      RegFrame [VF] s t ∧ Frame [.disp, .V] s t

/-- R226: the same sprite drawn twice at the same place, with x and y other than 15, restores the display; the second VF is 1
if and only if the first draw turned some cell from 0 to 1, and else 0. -/
def Obligations.DrawingTwiceRestoresTheDisplay : Prop :=
  ∀ (x y : Reg) (n : Fin 16) (s : State),
    x ≠ VF → y ≠ VF → (∀ k, k < n.val → s.indexed k < 4096) →
    ∃ t u, exec (.drw x y n) s = .next t ∧ exec (.drw x y n) t = .next u ∧
      RegFrame [VF] s u ∧ Frame [.V] s u ∧
      ((∃ row col, s.pixel row col = false ∧ t.pixel row col = true) → u.reg VF = 1) ∧
      ((¬∃ row col, s.pixel row col = false ∧ t.pixel row col = true) → u.reg VF = 0)

/-! ## Delay timer and register transfer -/

/-- R240, R241: FX07 copies DT to V[x], FX15 copies V[x] to DT; nothing else changes, the sound timer included. -/
def Obligations.DelayTimerIsReadAndWritten : Prop :=
  ∀ (x : Reg) (s : State),
    (∃ t, exec (.ldVxDT x) s = .next t ∧ t.reg x = s.DT ∧ RegFrame [x] s t ∧ Frame [.V] s t) ∧
    (∃ t, exec (.ldDTVx x) s = .next t ∧ t.DT = s.reg x ∧ Frame [.DT] s t)

/-- R242 (that I is unchanged is D10's): a dump whose block lies in memory stores V[i] at I + i for every i up to x, and
every other byte and everything else stays. -/
def Obligations.DumpStoresTheRegisters : Prop :=
  ∀ (x : Reg) (s : State),
    s.indexed x.val < 4096 →
    ∃ t, exec (.dump x) s = .next t ∧
      (∀ r : Reg, r ≤ x → t.byteAt (s.indexed r.val) = s.reg r) ∧
      (∀ a, (∀ r : Reg, r ≤ x → a ≠ s.indexed r.val) → t.byteAt a = s.byteAt a) ∧
      Frame [.mem] s t

/-- R243 (that I is unchanged is D10's): a load whose block lies in memory takes V[i] from I + i for every i up to x; the
registers above x and everything else stay. -/
def Obligations.LoadFillsTheRegisters : Prop :=
  ∀ (x : Reg) (s : State),
    s.indexed x.val < 4096 →
    ∃ t, exec (.load x) s = .next t ∧
      (∀ r : Reg, r ≤ x → t.reg r = s.byteAt (s.indexed r.val)) ∧
      (∀ r : Reg, x < r → t.reg r = s.reg r) ∧
      Frame [.V] s t

/-- R242, R243 (D10): a load from the block that a dump has just stored brings back V0..=Vx, whatever the registers hold in
between. -/
def Obligations.LoadAfterDumpReproducesTheRegisters : Prop :=
  ∀ (x : Reg) (s : State) (V' : Vector Byte 16),
    s.indexed x.val < 4096 →
    ∃ t u, exec (.dump x) s = .next t ∧ exec (.load x) { t with V := V' } = .next u ∧
      (∀ r : Reg, r ≤ x → u.reg r = s.reg r) ∧ (∀ r : Reg, x < r → u.reg r = V'[r]) ∧
      Frame [.V] t u

/-- R264, R269 (D11, D14): DRW, FX55 and FX65 that reach an address of 4096 or more halt the machine with the first such
address; the error is appended to `faults`. (The other components are free values, log entry 3.) -/
def Obligations.AccessBeyondMemoryHalts : Prop :=
  ∀ (x y : Reg) (n : Fin 16) (s : State),
    (0 < n.val → 4096 < s.I.toNat + n.val →
      ∃ t, exec (.drw x y n) s = .next t ∧ t.halted = true ∧
        t.faults = s.faults ++ [.memoryOutOfBounds (max 4096 s.I.toNat)]) ∧
    (4096 ≤ s.indexed x.val →
      (∃ t, exec (.dump x) s = .next t ∧ t.halted = true ∧
        t.faults = s.faults ++ [.memoryOutOfBounds (max 4096 s.I.toNat)]) ∧
      (∃ t, exec (.load x) s = .next t ∧ t.halted = true ∧
        t.faults = s.faults ++ [.memoryOutOfBounds (max 4096 s.I.toNat)]))

/-- R86, R87, R242: a cycle that dumps registers runs the word it fetched, even where the block overwrites it, and every word
fetched afterwards from inside the block is the stored one. -/
def Obligations.StoredCodeIsFetchedAfterwards : Prop :=
  ∀ (x : Reg) (s : State),
    Fetches s (.dump x) → s.indexed x.val < 4096 →
    ∃ t, step s = .next t ∧ t.pc = s.pc + 2 ∧
      (∀ r q : Reg, q ≤ x → q.val = r.val + 1 → t.fetch16 (s.indexed r.val) = .ok (wordOfBytes (s.reg r) (s.reg q))) ∧
      (∀ r : Reg, r ≤ x → t.byteAt (s.indexed r.val) = s.reg r) ∧
      Frame [.pc, .mem] s t

/-! ## Rules of the whole machine -/

/-- R32, R33 (that the logic operations leave VF alone is D9's): a register that an instruction does not name is neither
written nor read by it: with another value in that register, the same instruction gives the same next state but for that
value. (A MemoryOutOfBounds inside the instruction leaves the registers unspecified, R269.) -/
def Obligations.UnnamedRegistersAreNeitherReadNorWritten : Prop :=
  ∀ (i : Instr) (s t : State) (r : Reg) (v : Byte),
    exec i s = .next t → t.halted = false → r ∉ namedRegs i →
    t.reg r = s.reg r ∧ exec i (s.setReg r v) = .next (t.setReg r v)

/-- R32, R33 (that 8XY0 to 8XY3 leave VF alone is D9's): in a cycle that ends not halted, a register changes only by an
instruction that has it as a destination, or, for VF, by an instruction that writes a flag. -/
def Obligations.RegistersChangeOnlyByTheirWriters : Prop :=
  ∀ (s t : State) (r : Reg),
    step s = .next t → t.halted = false → t.reg r ≠ s.reg r → ∃ i, Fetches s i ∧ r ∈ destRegs i

/-- R30, R35, R39, R42, R44, R46, R74 (R35, R42 and R74 are the spec's derivations; that FX55 and FX65 leave I alone is
D10's; R39 and R46 rest on D29 and D4; that the configuration is a field of State which no step changes is the model's
choice, log entry 1, after R30, which calls it an input): in a cycle that ends not halted, I is written only by ANNN, the
stack only by CALL and RET, the display only by CLS and DXYN, memory only by FX55; the sound timer, the key latch and the
configuration never. -/
def Obligations.EachComponentHasItsWriters : Prop :=
  ∀ s t : State, step s = .next t → t.halted = false →
    (t.I = s.I ∨ ∃ nnn, Fetches s (.ldI nnn)) ∧
    (t.stack = s.stack ∨ (∃ nnn, Fetches s (.call nnn)) ∨ ∃ u, Fetches s (.ret u)) ∧
    ((∀ row col, t.pixel row col = s.pixel row col) ∨ (∃ u, Fetches s (.cls u)) ∨ ∃ x y n, Fetches s (.drw x y n)) ∧
    ((∀ a, t.byteAt a = s.byteAt a) ∨ ∃ x, Fetches s (.dump x)) ∧
    t.ST = s.ST ∧ t.key = s.key ∧ t.cfg = s.cfg

/-- R279, R277 (the type of the amount is D20's): no cycle decrements a timer: ST stays and DT is written only by FX15, which
copies V[x]; and the host's decrement lowers both by the amount, at least to 0, never below. (A MemoryOutOfBounds inside an
instruction leaves the timers unspecified, R269.) -/
def Obligations.TimersFallOnlyByTheHostAndStopAtZero : Prop :=
  (∀ s t : State, step s = .next t → t.halted = false →
    t.ST = s.ST ∧ ((∀ x, ¬Fetches s (.ldDTVx x)) → t.DT = s.DT) ∧ (∀ x, Fetches s (.ldDTVx x) → t.DT = s.reg x)) ∧
  (∀ (s : State) (amount : Nat), s.halted = false →
    ∃ t, hostCall (.decrementTimers amount) s = .next (t, .ok) ∧
      t.DT.toNat = s.DT.toNat - amount ∧ t.ST.toNat = s.ST.toNat - amount ∧ Frame [.DT, .ST] s t)

/-- R310, R312 (the reset values of I and the stack are D15's, those of `faults` and `halted` D30's; the canonical form of
memory is the model's, log entry 2): after `initialize()`, for every configuration, the invariant of StepKeepsInv holds:
memory in canonical form, the stack within its capacity (R40), the machine halted exactly with a reported MemoryOutOfBounds
(R47, R269), and, while it is not halted, pc, I and the return addresses within the bounds of R35 and R38. It is in fact not
halted, with no error reported, so those bounds hold. -/
def Obligations.ResetMeetsInv : Prop :=
  ∀ cfg : Config,
    Inv (State.resetWith cfg) ∧ (State.resetWith cfg).halted = false ∧ (State.resetWith cfg).faults = []

/-- Every step keeps the invariant: memory in canonical form (log entry 2), the stack within its capacity (R40, D13; after a
MemoryOutOfBounds inside an instruction by log entry 3), `halted` exactly with a reported MemoryOutOfBounds (R47, R269; D11,
D14), and while not halted the bounds of pc, I and the return addresses (R35, R38; D10). -/
def Obligations.StepKeepsInv : Prop :=
  ∀ s t : State, Inv s → step s = .next t → Inv t

/-- R288 (D17; that a run is a list of host calls here is log entry 6, and InfiniteRunsKeepInv covers the infinite ones):
every finite run, any sequence of host calls with any arguments, keeps the invariant of StepKeepsInv, whose canonical form of
memory is log entry 2. -/
def Obligations.RunsKeepInv : Prop :=
  ∀ (calls : List HostCall) (s t : State) (replies : List Reply),
    Inv s → hostRun calls s = .next (t, replies) → Inv t

/-- R288 (D17; log entry 6): every state of an infinite run, any infinite sequence of host calls with any arguments, meets the
invariant if the first does (its canonical form of memory is log entry 2). -/
def Obligations.InfiniteRunsKeepInv : Prop :=
  ∀ (calls : Nat → HostCall) (states : Nat → State) (replies : Nat → Reply),
    Inv (states 0) → InfiniteRun calls states replies → ∀ k, Inv (states k)

/-- R288 (D17; log entry 6): the finite and the infinite runs agree. The first k calls of an infinite run are a finite run,
with its states and replies; and an infinite sequence of calls, every finite part of which runs, has an infinite run. -/
def Obligations.InfiniteRunsAreTheLimitsOfFiniteRuns : Prop :=
  (∀ (calls : Nat → HostCall) (states : Nat → State) (replies : Nat → Reply),
    InfiniteRun calls states replies →
    ∀ k, hostRun (firstOf calls k) (states 0) = .next (states k, firstOf replies k)) ∧
  (∀ (calls : Nat → HostCall) (s : State),
    (∀ k, ∃ t rs, hostRun (firstOf calls k) s = .next (t, rs)) →
    ∃ states replies, states 0 = s ∧ InfiniteRun calls states replies)

/-- R47 (D14, D30): in a run without `initialize()` no entry of `faults` is removed. `halted` is never cleared in it either,
because a halted machine has no such run but the empty one, which changes nothing; that each single call faults there (R269)
is what HaltedMachineHasNoStep states and carries. -/
def Obligations.ErrorsStayUntilInitialize : Prop :=
  ∀ (calls : List HostCall) (s t : State) (replies : List Reply),
    HostCall.init ∉ calls → hostRun calls s = .next (t, replies) →
    (∃ later, t.faults = s.faults ++ later) ∧ (s.halted = true → calls = [] ∧ t = s)

/-- The canonical form of memory (log entry 2): memories in it that read alike at every address are equal. -/
def Obligations.CanonicalMemoriesThatReadAlikeAreEqual : Prop :=
  ∀ (glyphs : Vector (Vector Byte 5) 16) (m m' : Memory),
    Memory.wf glyphs m = true → Memory.wf glyphs m' = true →
    (∀ a, Memory.read glyphs m a = Memory.read glyphs m' a) → m = m'

/-! ## Reset and the host's entry points -/

/-- R78: after `initialize()` pc is 0x200, byte k of glyph d is at 0x050 + 5·d + k, every other byte is 0, and an image at
0x200 fits exactly if it has at most 3584 bytes. -/
def Obligations.ResetMemoryFollowsTheAddressMap : Prop :=
  ∀ cfg : Config,
    (State.resetWith cfg).pc = 0x200 ∧
    (∀ (d : Fin 16) (k : Fin 5), (State.resetWith cfg).byteAt (0x050 + 5 * d.val + k.val) = cfg.glyphs[d][k]) ∧
    (∀ a, a < 0x050 ∨ 0x0A0 ≤ a → (State.resetWith cfg).byteAt a = 0) ∧
    (∀ bytes : List Byte, ((State.resetWith cfg).loadImage bytes 0x200).2 = .ok ↔ bytes.length ≤ 3584)

/-- R310, R312 (D15, D16, D30 for every value but pc and zeroed memory; that the counter of draws stays is log entry 11):
what `initialize()` leaves, from any state, halted or not: the reset values, whatever the state was, and the configuration as
it was. -/
def Obligations.InitializeGivesTheResetValues : Prop :=
  ∀ s : State, ∃ t, hostCall .init s = .next (t, .ok) ∧
    t.pc = 0x200 ∧ (∀ r, t.reg r = 0) ∧ t.I = 0 ∧ t.stack = [] ∧ t.DT = 0 ∧ t.ST = 0 ∧
    (∀ row col, t.pixel row col = false) ∧ t.key = none ∧ t.faults = [] ∧ t.halted = false ∧
    Frame [.draws] (State.resetWith s.cfg) t

/-- R265: `loadImage` raises ImageTooLarge, with the address and the length, exactly if address + length exceeds 4096. -/
def Obligations.OversizedImageIsRefused : Prop :=
  ∀ (bytes : List Byte) (address : Nat) (s : State), s.halted = false →
    (4096 < address + bytes.length →
      ∃ t, hostCall (.loadImage bytes address) s = .next (t, .error (.imageTooLarge address bytes.length))) ∧
    (address + bytes.length ≤ 4096 → ∃ t, hostCall (.loadImage bytes address) s = .next (t, .ok))

/-- R286 (D22): an image that fits is placed byte for byte at its address, and every other byte and everything else stays; one
that does not fit changes nothing at all, `faults` included. -/
def Obligations.ImageIsPlacedVerbatim : Prop :=
  ∀ (bytes : List Byte) (address : Nat) (s : State), s.halted = false →
    (address + bytes.length ≤ 4096 →
      ∃ t, hostCall (.loadImage bytes address) s = .next (t, .ok) ∧
        (∀ (k : Nat) (h : k < bytes.length), t.byteAt (address + k) = bytes[k]) ∧
        (∀ a, a < address ∨ address + bytes.length ≤ a → t.byteAt a = s.byteAt a) ∧
        Frame [.mem] s t) ∧
    (4096 < address + bytes.length →
      hostCall (.loadImage bytes address) s = .next (s, .error (.imageTooLarge address bytes.length)))

/-- R313 (D22; log entry 5): after `initialize()` and `loadImage` of a program at 0x200, from any state, pc is 0x200 and the
word fetched there is the program's first; with no image the first fetch reads 0x0000, which the next cycle reports as
Unsupported. -/
def Obligations.BootFetchesTheProgramsFirstWord : Prop :=
  (∀ (s : State) (hi lo : Byte) (rest : List Byte), (hi :: lo :: rest).length ≤ 3584 →
    ∃ t, hostRun [.init, .loadImage (hi :: lo :: rest) 0x200] s = .next (t, [.ok, .ok]) ∧
      t.pc = 0x200 ∧ t.fetch16 0x200 = .ok (wordOfBytes hi lo)) ∧
  (∀ s : State, ∃ t, hostRun [.init, .cycle] s = .next (t, [.ok, .error (.unsupportedOpcode 0x0000)]) ∧
    t.pc = 0x202 ∧ t.faults = [.unsupportedOpcode 0x0000])

/-- R283 (D4, D21): `setInputKey(key)` sets the latch to its argument and changes nothing else. -/
def Obligations.SetInputKeySetsTheLatch : Prop :=
  ∀ (key : Option (Fin 16)) (s : State), s.halted = false →
    ∃ t, hostCall (.setInputKey key) s = .next (t, .ok) ∧ t.key = key ∧ Frame [.key] s t

/-- R281: `get(row, col)` returns the cell for row < 32 and col < 64 and DisplayOutOfBounds(row, col) otherwise, and changes
no state. -/
def Obligations.GetReadsTheCellOrReportsItsBounds : Prop :=
  ∀ (s : State), s.halted = false →
    (∀ (row : Fin 32) (col : Fin 64), hostCall (.get row.val col.val) s = .next (s, .bit (s.pixel row col))) ∧
    (∀ row col : Nat, 32 ≤ row ∨ 64 ≤ col →
      hostCall (.get row col) s = .next (s, .error (.displayOutOfBounds row col)))
end

