-- ==== Sys2Proof/Laws/Decode.lean ====
section
/-! SUPPORT. Words put together from their fields: their values, their split, and what a classification can do. -/

namespace Sys2Proof

@[simp] theorem nibble_toFin (k : Fin 16) : (nibble k).toFin = k := rfl

@[simp] theorem nibble_toNat (k : Fin 16) : (nibble k).toNat = k.val := rfl

@[simp] theorem nibble_of_toFin (b : BitVec 4) : nibble b.toFin = b := rfl

/-! ## Values -/

theorem toNat_append {m n : Nat} (a : BitVec m) (b : BitVec n) : (a ++ b).toNat = a.toNat * 2 ^ n + b.toNat := by
  rw [BitVec.toNat_append, ← Nat.shiftLeft_add_eq_or_of_lt b.isLt, Nat.shiftLeft_eq]

theorem toNat_nibbles (w x y n : BitVec 4) :
    BitVec.toNat (w := 16) (w ++ x ++ y ++ n) = 4096 * w.toNat + 256 * x.toNat + 16 * y.toNat + n.toNat := by
  refine (toNat_append (w ++ x ++ y) n).trans ?_
  rw [toNat_append, toNat_append]
  omega

theorem toNat_imm (w x : BitVec 4) (nn : Byte) :
    BitVec.toNat (w := 16) (w ++ x ++ nn) = 4096 * w.toNat + 256 * x.toNat + nn.toNat := by
  refine (toNat_append (w ++ x) nn).trans ?_
  rw [toNat_append]
  omega

theorem toNat_addr (w : BitVec 4) (nnn : Addr12) :
    BitVec.toNat (w := 16) (w ++ nnn) = 4096 * w.toNat + nnn.toNat := by
  refine (toNat_append w nnn).trans ?_
  omega

theorem toNat_wordOfBytes (hi lo : Byte) : (wordOfBytes hi lo).toNat = 256 * hi.toNat + lo.toNat := by
  refine (toNat_append hi lo).trans ?_
  omega

/-! ## The split in numbers (R101) -/

variable (ins : Word)

theorem splitFields_w_toNat : (splitFields ins).w.toNat = ins.toNat / 4096 := by
  have := ins.isLt
  simp only [splitFields, BitVec.extractLsb'_toNat, Nat.shiftRight_eq_div_pow]
  omega

theorem splitFields_x_toNat : (splitFields ins).x.toNat = ins.toNat / 256 % 16 := by
  simp only [splitFields, BitVec.extractLsb'_toNat, Nat.shiftRight_eq_div_pow]

theorem splitFields_y_toNat : (splitFields ins).y.toNat = ins.toNat / 16 % 16 := by
  simp only [splitFields, BitVec.extractLsb'_toNat, Nat.shiftRight_eq_div_pow]

theorem splitFields_n_toNat : (splitFields ins).n.toNat = ins.toNat % 16 := by
  simp only [splitFields, BitVec.extractLsb'_toNat, Nat.shiftRight_eq_div_pow]
  omega

theorem splitFields_nn_toNat : (splitFields ins).nn.toNat = ins.toNat % 256 := by
  simp only [splitFields, BitVec.extractLsb'_toNat, Nat.shiftRight_eq_div_pow]
  omega

theorem splitFields_nnn_toNat : (splitFields ins).nnn.toNat = ins.toNat % 4096 := by
  simp only [splitFields, BitVec.extractLsb'_toNat, Nat.shiftRight_eq_div_pow]
  omega

/-! ## The split of a word put together -/

variable (w x y n : BitVec 4) (nn : Byte) (nnn : Addr12)

theorem split_nibbles_w : (splitFields (w ++ x ++ y ++ n)).w = w := by
  apply BitVec.eq_of_toNat_eq
  rw [splitFields_w_toNat, toNat_nibbles]
  omega

theorem split_nibbles_x : (splitFields (w ++ x ++ y ++ n)).x = x := by
  apply BitVec.eq_of_toNat_eq
  rw [splitFields_x_toNat, toNat_nibbles]
  omega

theorem split_nibbles_y : (splitFields (w ++ x ++ y ++ n)).y = y := by
  apply BitVec.eq_of_toNat_eq
  rw [splitFields_y_toNat, toNat_nibbles]
  omega

theorem split_nibbles_n : (splitFields (w ++ x ++ y ++ n)).n = n := by
  apply BitVec.eq_of_toNat_eq
  rw [splitFields_n_toNat, toNat_nibbles]
  omega

theorem split_imm_w : (splitFields (w ++ x ++ nn)).w = w := by
  apply BitVec.eq_of_toNat_eq
  rw [splitFields_w_toNat, toNat_imm]
  omega

theorem split_imm_x : (splitFields (w ++ x ++ nn)).x = x := by
  apply BitVec.eq_of_toNat_eq
  rw [splitFields_x_toNat, toNat_imm]
  omega

theorem split_imm_nn : (splitFields (w ++ x ++ nn)).nn = nn := by
  apply BitVec.eq_of_toNat_eq
  rw [splitFields_nn_toNat, toNat_imm]
  omega

theorem split_addr_w : (splitFields (w ++ nnn)).w = w := by
  apply BitVec.eq_of_toNat_eq
  rw [splitFields_w_toNat, toNat_addr]
  omega

theorem split_addr_nnn : (splitFields (w ++ nnn)).nnn = nnn := by
  apply BitVec.eq_of_toNat_eq
  rw [splitFields_nnn_toNat, toNat_addr]
  omega

theorem fields_eq {f g : Fields} (hw : f.w = g.w) (hx : f.x = g.x) (hy : f.y = g.y) (hn : f.n = g.n) (hnn : f.nn = g.nn)
    (hnnn : f.nnn = g.nnn) : f = g := by
  cases f; cases g; simp_all

/-- The split of a word of four nibbles. -/
theorem splitFields_nibbles : splitFields (w ++ x ++ y ++ n) = ⟨w, x, y, n, y ++ n, x ++ y ++ n⟩ := by
  refine fields_eq (split_nibbles_w ..) (split_nibbles_x ..) (split_nibbles_y ..) (split_nibbles_n ..) ?_ ?_
  · apply BitVec.eq_of_toNat_eq
    rw [splitFields_nn_toNat, toNat_nibbles, toNat_append]
    omega
  · apply BitVec.eq_of_toNat_eq
    rw [splitFields_nnn_toNat, toNat_nibbles, toNat_append, toNat_append]
    omega

/-- The split of a word of two nibbles and a byte. -/
theorem splitFields_imm :
    splitFields (w ++ x ++ nn) = ⟨w, x, nn.extractLsb' 4 4, nn.extractLsb' 0 4, nn, x ++ nn⟩ := by
  refine fields_eq (split_imm_w ..) (split_imm_x ..) ?_ ?_ (split_imm_nn ..) ?_ <;> apply BitVec.eq_of_toNat_eq
  · rw [splitFields_y_toNat, toNat_imm, BitVec.extractLsb'_toNat, Nat.shiftRight_eq_div_pow]
    omega
  · rw [splitFields_n_toNat, toNat_imm, BitVec.extractLsb'_toNat, Nat.shiftRight_eq_div_pow]
    omega
  · rw [splitFields_nnn_toNat, toNat_imm, toNat_append]
    omega

/-- The split of a word of a nibble and an address. -/
theorem splitFields_addr :
    splitFields (w ++ nnn) =
      ⟨w, nnn.extractLsb' 8 4, nnn.extractLsb' 4 4, nnn.extractLsb' 0 4, nnn.extractLsb' 0 8, nnn⟩ := by
  refine fields_eq (split_addr_w ..) ?_ ?_ ?_ ?_ (split_addr_nnn ..) <;> apply BitVec.eq_of_toNat_eq
  · rw [splitFields_x_toNat, toNat_addr, BitVec.extractLsb'_toNat, Nat.shiftRight_eq_div_pow]
    omega
  · rw [splitFields_y_toNat, toNat_addr, BitVec.extractLsb'_toNat, Nat.shiftRight_eq_div_pow]
    omega
  · rw [splitFields_n_toNat, toNat_addr, BitVec.extractLsb'_toNat, Nat.shiftRight_eq_div_pow]
    omega
  · rw [splitFields_nn_toNat, toNat_addr, BitVec.extractLsb'_toNat, Nat.shiftRight_eq_div_pow]
    omega

/-- A word is its four nibbles. -/
theorem word_eq_nibbles :
    ins = (splitFields ins).w ++ (splitFields ins).x ++ (splitFields ins).y ++ (splitFields ins).n := by
  apply BitVec.eq_of_toNat_eq
  rw [toNat_nibbles, splitFields_w_toNat, splitFields_x_toNat, splitFields_y_toNat, splitFields_n_toNat]
  omega

/-- A word is its first nibble, its second and its low byte. -/
theorem word_eq_imm : ins = (splitFields ins).w ++ (splitFields ins).x ++ (splitFields ins).nn := by
  apply BitVec.eq_of_toNat_eq
  rw [toNat_imm, splitFields_w_toNat, splitFields_x_toNat, splitFields_nn_toNat]
  omega

/-- A word is its first nibble and its low twelve bits. -/
theorem word_eq_addr : ins = (splitFields ins).w ++ (splitFields ins).nnn := by
  apply BitVec.eq_of_toNat_eq
  rw [toNat_addr, splitFields_w_toNat, splitFields_nnn_toNat]
  omega

/-! ## Bytes and words (R72) -/

theorem wordOfBytes_bytesOfWord : wordOfBytes (ins.extractLsb' 8 8) (ins.extractLsb' 0 8) = ins := by
  apply BitVec.eq_of_toNat_eq
  have := ins.isLt
  rw [toNat_wordOfBytes]
  simp only [BitVec.extractLsb'_toNat, Nat.shiftRight_eq_div_pow]
  omega

theorem bytesOfWord_wordOfBytes (hi lo : Byte) : bytesOfWord (wordOfBytes hi lo) = [hi, lo] := by
  simp only [bytesOfWord, List.cons.injEq, and_true]
  refine ⟨BitVec.eq_of_toNat_eq ?_, BitVec.eq_of_toNat_eq ?_⟩ <;>
    simp only [BitVec.extractLsb'_toNat, Nat.shiftRight_eq_div_pow, toNat_wordOfBytes] <;> omega

/-! ## Classification -/

/-- All a classification can do: it gives a well-formed instruction that the dispatch names, or refuses with the word. -/
theorem classify_cases (cfg : Config) :
    (∃ i, classifyFields (splitFields ins) = some i ∧ i.wf cfg = true ∧ classify cfg ins = .ok i) ∨
    classify cfg ins = .error (.unsupported ins) := by
  unfold classify
  split
  · exact .inr rfl
  · rename_i i h
    by_cases w : i.wf cfg = true
    · exact .inl ⟨i, h, w, by simp [w]⟩
    · exact .inr (by simp [w])

variable {ins}

theorem classify_ok {cfg : Config} {i : Instr} (h : classify cfg ins = .ok i) :
    classifyFields (splitFields ins) = some i ∧ i.wf cfg = true := by
  rcases classify_cases ins cfg with ⟨j, hj, w, hk⟩ | hk
  · rw [hk] at h; cases h; exact ⟨hj, w⟩
  · rw [hk] at h; cases h

theorem classify_of_fields {cfg : Config} {i : Instr} (h : classifyFields (splitFields ins) = some i)
    (w : i.wf cfg = true) : classify cfg ins = .ok i := by
  simp [classify, h, w]

end Sys2Proof
end

