-- ==== Sys2Proof/Laws/State.lean ====
section
/-! SUPPORT. One lemma per field and update of State, and what the register file answers after a write. -/

namespace Sys2Proof.Machine

variable (s : State)

/-! ### setReg -/

@[simp] theorem State.setReg_V (r : Reg) (v : Byte) : (s.setReg r v).V = s.V.set r v := rfl
@[simp] theorem State.setReg_I (r : Reg) (v : Byte) : (s.setReg r v).I = s.I := rfl
@[simp] theorem State.setReg_pc (r : Reg) (v : Byte) : (s.setReg r v).pc = s.pc := rfl
@[simp] theorem State.setReg_stack (r : Reg) (v : Byte) : (s.setReg r v).stack = s.stack := rfl
@[simp] theorem State.setReg_DT (r : Reg) (v : Byte) : (s.setReg r v).DT = s.DT := rfl
@[simp] theorem State.setReg_ST (r : Reg) (v : Byte) : (s.setReg r v).ST = s.ST := rfl
@[simp] theorem State.setReg_mem (r : Reg) (v : Byte) : (s.setReg r v).mem = s.mem := rfl
@[simp] theorem State.setReg_disp (r : Reg) (v : Byte) : (s.setReg r v).disp = s.disp := rfl
@[simp] theorem State.setReg_key (r : Reg) (v : Byte) : (s.setReg r v).key = s.key := rfl
@[simp] theorem State.setReg_faults (r : Reg) (v : Byte) : (s.setReg r v).faults = s.faults := rfl
@[simp] theorem State.setReg_halted (r : Reg) (v : Byte) : (s.setReg r v).halted = s.halted := rfl
@[simp] theorem State.setReg_cfg (r : Reg) (v : Byte) : (s.setReg r v).cfg = s.cfg := rfl
@[simp] theorem State.setReg_draws (r : Reg) (v : Byte) : (s.setReg r v).draws = s.draws := rfl

/-! ### setI -/

@[simp] theorem State.setI_V (v : Word) : (s.setI v).V = s.V := rfl
@[simp] theorem State.setI_I (v : Word) : (s.setI v).I = v := rfl
@[simp] theorem State.setI_pc (v : Word) : (s.setI v).pc = s.pc := rfl
@[simp] theorem State.setI_stack (v : Word) : (s.setI v).stack = s.stack := rfl
@[simp] theorem State.setI_DT (v : Word) : (s.setI v).DT = s.DT := rfl
@[simp] theorem State.setI_ST (v : Word) : (s.setI v).ST = s.ST := rfl
@[simp] theorem State.setI_mem (v : Word) : (s.setI v).mem = s.mem := rfl
@[simp] theorem State.setI_disp (v : Word) : (s.setI v).disp = s.disp := rfl
@[simp] theorem State.setI_key (v : Word) : (s.setI v).key = s.key := rfl
@[simp] theorem State.setI_faults (v : Word) : (s.setI v).faults = s.faults := rfl
@[simp] theorem State.setI_halted (v : Word) : (s.setI v).halted = s.halted := rfl
@[simp] theorem State.setI_cfg (v : Word) : (s.setI v).cfg = s.cfg := rfl
@[simp] theorem State.setI_draws (v : Word) : (s.setI v).draws = s.draws := rfl

/-! ### setDT -/

@[simp] theorem State.setDT_V (v : Byte) : (s.setDT v).V = s.V := rfl
@[simp] theorem State.setDT_I (v : Byte) : (s.setDT v).I = s.I := rfl
@[simp] theorem State.setDT_pc (v : Byte) : (s.setDT v).pc = s.pc := rfl
@[simp] theorem State.setDT_stack (v : Byte) : (s.setDT v).stack = s.stack := rfl
@[simp] theorem State.setDT_DT (v : Byte) : (s.setDT v).DT = v := rfl
@[simp] theorem State.setDT_ST (v : Byte) : (s.setDT v).ST = s.ST := rfl
@[simp] theorem State.setDT_mem (v : Byte) : (s.setDT v).mem = s.mem := rfl
@[simp] theorem State.setDT_disp (v : Byte) : (s.setDT v).disp = s.disp := rfl
@[simp] theorem State.setDT_key (v : Byte) : (s.setDT v).key = s.key := rfl
@[simp] theorem State.setDT_faults (v : Byte) : (s.setDT v).faults = s.faults := rfl
@[simp] theorem State.setDT_halted (v : Byte) : (s.setDT v).halted = s.halted := rfl
@[simp] theorem State.setDT_cfg (v : Byte) : (s.setDT v).cfg = s.cfg := rfl
@[simp] theorem State.setDT_draws (v : Byte) : (s.setDT v).draws = s.draws := rfl

/-! ### setPc -/

@[simp] theorem State.setPc_V (v : Word) : (s.setPc v).V = s.V := rfl
@[simp] theorem State.setPc_I (v : Word) : (s.setPc v).I = s.I := rfl
@[simp] theorem State.setPc_pc (v : Word) : (s.setPc v).pc = v := rfl
@[simp] theorem State.setPc_stack (v : Word) : (s.setPc v).stack = s.stack := rfl
@[simp] theorem State.setPc_DT (v : Word) : (s.setPc v).DT = s.DT := rfl
@[simp] theorem State.setPc_ST (v : Word) : (s.setPc v).ST = s.ST := rfl
@[simp] theorem State.setPc_mem (v : Word) : (s.setPc v).mem = s.mem := rfl
@[simp] theorem State.setPc_disp (v : Word) : (s.setPc v).disp = s.disp := rfl
@[simp] theorem State.setPc_key (v : Word) : (s.setPc v).key = s.key := rfl
@[simp] theorem State.setPc_faults (v : Word) : (s.setPc v).faults = s.faults := rfl
@[simp] theorem State.setPc_halted (v : Word) : (s.setPc v).halted = s.halted := rfl
@[simp] theorem State.setPc_cfg (v : Word) : (s.setPc v).cfg = s.cfg := rfl
@[simp] theorem State.setPc_draws (v : Word) : (s.setPc v).draws = s.draws := rfl

/-! ### advancePc -/

@[simp] theorem State.advancePc_V : s.advancePc.V = s.V := rfl
@[simp] theorem State.advancePc_I : s.advancePc.I = s.I := rfl
@[simp] theorem State.advancePc_pc : s.advancePc.pc = s.pc + 2 := rfl
@[simp] theorem State.advancePc_stack : s.advancePc.stack = s.stack := rfl
@[simp] theorem State.advancePc_DT : s.advancePc.DT = s.DT := rfl
@[simp] theorem State.advancePc_ST : s.advancePc.ST = s.ST := rfl
@[simp] theorem State.advancePc_mem : s.advancePc.mem = s.mem := rfl
@[simp] theorem State.advancePc_disp : s.advancePc.disp = s.disp := rfl
@[simp] theorem State.advancePc_key : s.advancePc.key = s.key := rfl
@[simp] theorem State.advancePc_faults : s.advancePc.faults = s.faults := rfl
@[simp] theorem State.advancePc_halted : s.advancePc.halted = s.halted := rfl
@[simp] theorem State.advancePc_cfg : s.advancePc.cfg = s.cfg := rfl
@[simp] theorem State.advancePc_draws : s.advancePc.draws = s.draws := rfl

/-! ### push -/

@[simp] theorem State.push_V (v : Word) : (s.push v).V = s.V := rfl
@[simp] theorem State.push_I (v : Word) : (s.push v).I = s.I := rfl
@[simp] theorem State.push_pc (v : Word) : (s.push v).pc = s.pc := rfl
@[simp] theorem State.push_stack (v : Word) : (s.push v).stack = v :: s.stack := rfl
@[simp] theorem State.push_DT (v : Word) : (s.push v).DT = s.DT := rfl
@[simp] theorem State.push_ST (v : Word) : (s.push v).ST = s.ST := rfl
@[simp] theorem State.push_mem (v : Word) : (s.push v).mem = s.mem := rfl
@[simp] theorem State.push_disp (v : Word) : (s.push v).disp = s.disp := rfl
@[simp] theorem State.push_key (v : Word) : (s.push v).key = s.key := rfl
@[simp] theorem State.push_faults (v : Word) : (s.push v).faults = s.faults := rfl
@[simp] theorem State.push_halted (v : Word) : (s.push v).halted = s.halted := rfl
@[simp] theorem State.push_cfg (v : Word) : (s.push v).cfg = s.cfg := rfl
@[simp] theorem State.push_draws (v : Word) : (s.push v).draws = s.draws := rfl

/-! ### clearDisplay -/

@[simp] theorem State.clearDisplay_V : s.clearDisplay.V = s.V := rfl
@[simp] theorem State.clearDisplay_I : s.clearDisplay.I = s.I := rfl
@[simp] theorem State.clearDisplay_pc : s.clearDisplay.pc = s.pc := rfl
@[simp] theorem State.clearDisplay_stack : s.clearDisplay.stack = s.stack := rfl
@[simp] theorem State.clearDisplay_DT : s.clearDisplay.DT = s.DT := rfl
@[simp] theorem State.clearDisplay_ST : s.clearDisplay.ST = s.ST := rfl
@[simp] theorem State.clearDisplay_mem : s.clearDisplay.mem = s.mem := rfl
@[simp] theorem State.clearDisplay_disp : s.clearDisplay.disp = Display.blank := rfl
@[simp] theorem State.clearDisplay_key : s.clearDisplay.key = s.key := rfl
@[simp] theorem State.clearDisplay_faults : s.clearDisplay.faults = s.faults := rfl
@[simp] theorem State.clearDisplay_halted : s.clearDisplay.halted = s.halted := rfl
@[simp] theorem State.clearDisplay_cfg : s.clearDisplay.cfg = s.cfg := rfl
@[simp] theorem State.clearDisplay_draws : s.clearDisplay.draws = s.draws := rfl

/-! ### report -/

@[simp] theorem State.report_V (e : Error) : (s.report e).V = s.V := rfl
@[simp] theorem State.report_I (e : Error) : (s.report e).I = s.I := rfl
@[simp] theorem State.report_pc (e : Error) : (s.report e).pc = s.pc := rfl
@[simp] theorem State.report_stack (e : Error) : (s.report e).stack = s.stack := rfl
@[simp] theorem State.report_DT (e : Error) : (s.report e).DT = s.DT := rfl
@[simp] theorem State.report_ST (e : Error) : (s.report e).ST = s.ST := rfl
@[simp] theorem State.report_mem (e : Error) : (s.report e).mem = s.mem := rfl
@[simp] theorem State.report_disp (e : Error) : (s.report e).disp = s.disp := rfl
@[simp] theorem State.report_key (e : Error) : (s.report e).key = s.key := rfl
@[simp] theorem State.report_faults (e : Error) : (s.report e).faults = s.faults ++ [e] := rfl
@[simp] theorem State.report_halted (e : Error) : (s.report e).halted = s.halted := rfl
@[simp] theorem State.report_cfg (e : Error) : (s.report e).cfg = s.cfg := rfl
@[simp] theorem State.report_draws (e : Error) : (s.report e).draws = s.draws := rfl

/-! ### haltOnFetch -/

@[simp] theorem State.haltOnFetch_V (e : Error) : (s.haltOnFetch e).V = s.V := rfl
@[simp] theorem State.haltOnFetch_I (e : Error) : (s.haltOnFetch e).I = s.I := rfl
@[simp] theorem State.haltOnFetch_pc (e : Error) : (s.haltOnFetch e).pc = s.pc := rfl
@[simp] theorem State.haltOnFetch_stack (e : Error) : (s.haltOnFetch e).stack = s.stack := rfl
@[simp] theorem State.haltOnFetch_DT (e : Error) : (s.haltOnFetch e).DT = s.DT := rfl
@[simp] theorem State.haltOnFetch_ST (e : Error) : (s.haltOnFetch e).ST = s.ST := rfl
@[simp] theorem State.haltOnFetch_mem (e : Error) : (s.haltOnFetch e).mem = s.mem := rfl
@[simp] theorem State.haltOnFetch_disp (e : Error) : (s.haltOnFetch e).disp = s.disp := rfl
@[simp] theorem State.haltOnFetch_key (e : Error) : (s.haltOnFetch e).key = s.key := rfl
@[simp] theorem State.haltOnFetch_faults (e : Error) : (s.haltOnFetch e).faults = s.faults ++ [e] := rfl
@[simp] theorem State.haltOnFetch_halted (e : Error) : (s.haltOnFetch e).halted = true := rfl
@[simp] theorem State.haltOnFetch_cfg (e : Error) : (s.haltOnFetch e).cfg = s.cfg := rfl
@[simp] theorem State.haltOnFetch_draws (e : Error) : (s.haltOnFetch e).draws = s.draws := rfl

/-! ### setInputKey -/

@[simp] theorem State.setInputKey_V (k : Option (Fin 16)) : (s.setInputKey k).V = s.V := rfl
@[simp] theorem State.setInputKey_I (k : Option (Fin 16)) : (s.setInputKey k).I = s.I := rfl
@[simp] theorem State.setInputKey_pc (k : Option (Fin 16)) : (s.setInputKey k).pc = s.pc := rfl
@[simp] theorem State.setInputKey_stack (k : Option (Fin 16)) : (s.setInputKey k).stack = s.stack := rfl
@[simp] theorem State.setInputKey_DT (k : Option (Fin 16)) : (s.setInputKey k).DT = s.DT := rfl
@[simp] theorem State.setInputKey_ST (k : Option (Fin 16)) : (s.setInputKey k).ST = s.ST := rfl
@[simp] theorem State.setInputKey_mem (k : Option (Fin 16)) : (s.setInputKey k).mem = s.mem := rfl
@[simp] theorem State.setInputKey_disp (k : Option (Fin 16)) : (s.setInputKey k).disp = s.disp := rfl
@[simp] theorem State.setInputKey_key (k : Option (Fin 16)) : (s.setInputKey k).key = k := rfl
@[simp] theorem State.setInputKey_faults (k : Option (Fin 16)) : (s.setInputKey k).faults = s.faults := rfl
@[simp] theorem State.setInputKey_halted (k : Option (Fin 16)) : (s.setInputKey k).halted = s.halted := rfl
@[simp] theorem State.setInputKey_cfg (k : Option (Fin 16)) : (s.setInputKey k).cfg = s.cfg := rfl
@[simp] theorem State.setInputKey_draws (k : Option (Fin 16)) : (s.setInputKey k).draws = s.draws := rfl

/-! ### decrementTimers -/

@[simp] theorem State.decrementTimers_V (n : Nat) : (s.decrementTimers n).V = s.V := rfl
@[simp] theorem State.decrementTimers_I (n : Nat) : (s.decrementTimers n).I = s.I := rfl
@[simp] theorem State.decrementTimers_pc (n : Nat) : (s.decrementTimers n).pc = s.pc := rfl
@[simp] theorem State.decrementTimers_stack (n : Nat) : (s.decrementTimers n).stack = s.stack := rfl
@[simp] theorem State.decrementTimers_DT (n : Nat) : (s.decrementTimers n).DT = decrementTimer s.DT n := rfl
@[simp] theorem State.decrementTimers_ST (n : Nat) : (s.decrementTimers n).ST = decrementTimer s.ST n := rfl
@[simp] theorem State.decrementTimers_mem (n : Nat) : (s.decrementTimers n).mem = s.mem := rfl
@[simp] theorem State.decrementTimers_disp (n : Nat) : (s.decrementTimers n).disp = s.disp := rfl
@[simp] theorem State.decrementTimers_key (n : Nat) : (s.decrementTimers n).key = s.key := rfl
@[simp] theorem State.decrementTimers_faults (n : Nat) : (s.decrementTimers n).faults = s.faults := rfl
@[simp] theorem State.decrementTimers_halted (n : Nat) : (s.decrementTimers n).halted = s.halted := rfl
@[simp] theorem State.decrementTimers_cfg (n : Nat) : (s.decrementTimers n).cfg = s.cfg := rfl
@[simp] theorem State.decrementTimers_draws (n : Nat) : (s.decrementTimers n).draws = s.draws := rfl

/-! ### haltInside: what R269 fixes -/

@[simp] theorem State.haltInside_faults (e : Error) : (s.haltInside e).faults = s.faults ++ [e] := rfl
@[simp] theorem State.haltInside_halted (e : Error) : (s.haltInside e).halted = true := rfl
@[simp] theorem State.haltInside_cfg (e : Error) : (s.haltInside e).cfg = s.cfg := rfl
@[simp] theorem State.haltInside_draws (e : Error) : (s.haltInside e).draws = s.draws + 1 := rfl

theorem State.haltInside_stack (e : Error) :
    (s.haltInside e).stack = clipStack s.cfg.stackDepth (Config.freeStack s.draws) := rfl
theorem State.haltInside_mem (e : Error) :
    (s.haltInside e).mem = Memory.ofContents s.cfg.glyphs (Config.freeMem s.draws) := by
  unfold State.haltInside
  with_reducible rfl

/-! ### skipIf changes pc alone -/

@[simp] theorem State.skipIf_V (c : Bool) : (s.skipIf c).V = s.V := by cases c <;> rfl
@[simp] theorem State.skipIf_I (c : Bool) : (s.skipIf c).I = s.I := by cases c <;> rfl
@[simp] theorem State.skipIf_pc (c : Bool) : (s.skipIf c).pc = if c then s.pc + 2 else s.pc := by cases c <;> rfl
@[simp] theorem State.skipIf_stack (c : Bool) : (s.skipIf c).stack = s.stack := by cases c <;> rfl
@[simp] theorem State.skipIf_DT (c : Bool) : (s.skipIf c).DT = s.DT := by cases c <;> rfl
@[simp] theorem State.skipIf_ST (c : Bool) : (s.skipIf c).ST = s.ST := by cases c <;> rfl
@[simp] theorem State.skipIf_mem (c : Bool) : (s.skipIf c).mem = s.mem := by cases c <;> rfl
@[simp] theorem State.skipIf_disp (c : Bool) : (s.skipIf c).disp = s.disp := by cases c <;> rfl
@[simp] theorem State.skipIf_key (c : Bool) : (s.skipIf c).key = s.key := by cases c <;> rfl
@[simp] theorem State.skipIf_faults (c : Bool) : (s.skipIf c).faults = s.faults := by cases c <;> rfl
@[simp] theorem State.skipIf_halted (c : Bool) : (s.skipIf c).halted = s.halted := by cases c <;> rfl
@[simp] theorem State.skipIf_cfg (c : Bool) : (s.skipIf c).cfg = s.cfg := by cases c <;> rfl
@[simp] theorem State.skipIf_draws (c : Bool) : (s.skipIf c).draws = s.draws := by cases c <;> rfl

/-! ### writeResultFlag changes V alone (R181) -/

@[simp] theorem State.writeResultFlag_I (x : Reg) (r : Byte) (b : Bool) : (s.writeResultFlag x r b).I = s.I := by
  unfold State.writeResultFlag; split <;> rfl
@[simp] theorem State.writeResultFlag_pc (x : Reg) (r : Byte) (b : Bool) : (s.writeResultFlag x r b).pc = s.pc := by
  unfold State.writeResultFlag; split <;> rfl
@[simp] theorem State.writeResultFlag_stack (x : Reg) (r : Byte) (b : Bool) : (s.writeResultFlag x r b).stack = s.stack := by
  unfold State.writeResultFlag; split <;> rfl
@[simp] theorem State.writeResultFlag_DT (x : Reg) (r : Byte) (b : Bool) : (s.writeResultFlag x r b).DT = s.DT := by
  unfold State.writeResultFlag; split <;> rfl
@[simp] theorem State.writeResultFlag_ST (x : Reg) (r : Byte) (b : Bool) : (s.writeResultFlag x r b).ST = s.ST := by
  unfold State.writeResultFlag; split <;> rfl
@[simp] theorem State.writeResultFlag_mem (x : Reg) (r : Byte) (b : Bool) : (s.writeResultFlag x r b).mem = s.mem := by
  unfold State.writeResultFlag; split <;> rfl
@[simp] theorem State.writeResultFlag_disp (x : Reg) (r : Byte) (b : Bool) : (s.writeResultFlag x r b).disp = s.disp := by
  unfold State.writeResultFlag; split <;> rfl
@[simp] theorem State.writeResultFlag_key (x : Reg) (r : Byte) (b : Bool) : (s.writeResultFlag x r b).key = s.key := by
  unfold State.writeResultFlag; split <;> rfl
@[simp] theorem State.writeResultFlag_faults (x : Reg) (r : Byte) (b : Bool) : (s.writeResultFlag x r b).faults = s.faults := by
  unfold State.writeResultFlag; split <;> rfl
@[simp] theorem State.writeResultFlag_halted (x : Reg) (r : Byte) (b : Bool) : (s.writeResultFlag x r b).halted = s.halted := by
  unfold State.writeResultFlag; split <;> rfl
@[simp] theorem State.writeResultFlag_cfg (x : Reg) (r : Byte) (b : Bool) : (s.writeResultFlag x r b).cfg = s.cfg := by
  unfold State.writeResultFlag; split <;> rfl
@[simp] theorem State.writeResultFlag_draws (x : Reg) (r : Byte) (b : Bool) : (s.writeResultFlag x r b).draws = s.draws := by
  unfold State.writeResultFlag; split <;> rfl

/-! ### Registers -/

@[simp] theorem State.reg_setReg_same (r : Reg) (v : Byte) : (s.setReg r v).reg r = v := by
  simp [State.reg]

theorem State.reg_setReg_ne {r q : Reg} (v : Byte) (h : q ≠ r) : (s.setReg r v).reg q = s.reg q := by
  have h' : r.val ≠ q.val := fun e => h (Fin.ext e.symm)
  simp [State.reg, h']

theorem State.reg_setReg (r q : Reg) (v : Byte) : (s.setReg r v).reg q = if q = r then v else s.reg q := by
  by_cases h : q = r
  · subst h; simp
  · rw [State.reg_setReg_ne s v h, if_neg h]

theorem State.reg_congr {s t : State} (h : t.V = s.V) (r : Reg) : t.reg r = s.reg r := by
  simp [State.reg, h]

theorem State.byteAt_congr {s t : State} (hm : t.mem = s.mem) (hc : t.cfg = s.cfg) (a : Nat) : t.byteAt a = s.byteAt a := by
  simp [State.byteAt, hm, hc]

theorem State.pixel_congr {s t : State} (h : t.disp = s.disp) (row : Fin 32) (col : Fin 64) :
    t.pixel row col = s.pixel row col := by
  simp [State.pixel, h]

/-- Two writes of different registers commute. -/
theorem State.setReg_comm {r q : Reg} (v w : Byte) (h : q ≠ r) :
    (s.setReg r v).setReg q w = (s.setReg q w).setReg r v := by
  have h' : r.val ≠ q.val := fun e => h (Fin.ext e.symm)
  simp only [State.setReg]
  rw [Vector.set_comm _ _ h']

/-- A register that is neither the destination nor VF keeps its value. -/
theorem State.reg_writeResultFlag_ne {x q : Reg} (r : Byte) (b : Bool) (hx : q ≠ x) (hf : q ≠ VF) :
    (s.writeResultFlag x r b).reg q = s.reg q := by
  unfold State.writeResultFlag
  split <;> simp [State.reg_setReg, hx, hf]

/-- For x ≠ 15 the order of the two writes does not matter (R181). -/
theorem State.reg_writeResultFlag_of_ne {x : Reg} (r : Byte) (b : Bool) (hx : x ≠ VF) :
    (s.writeResultFlag x r b).reg x = r ∧ (s.writeResultFlag x r b).reg VF = flagByte b := by
  unfold State.writeResultFlag
  have hx' : VF ≠ x := fun e => hx e.symm
  split <;> simp [State.reg_setReg, hx, hx']

/-- The write of a result and its flag commutes with a write of any other register. -/
theorem State.writeResultFlag_setReg {x q : Reg} (v r : Byte) (b : Bool) (hx : q ≠ x) (hf : q ≠ VF) :
    (s.setReg q v).writeResultFlag x r b = (s.writeResultFlag x r b).setReg q v := by
  unfold State.writeResultFlag
  simp only [State.setReg_cfg]
  split
  · rw [State.setReg_comm s _ _ hx.symm, State.setReg_comm _ _ _ hf.symm]
  · rw [State.setReg_comm s _ _ hf.symm, State.setReg_comm _ _ _ hx.symm]

/-- The saturating decrement is subtraction of naturals (R277). -/
@[simp] theorem decrementTimer_toNat (t : Byte) (n : Nat) : (decrementTimer t n).toNat = t.toNat - n := by
  unfold decrementTimer
  split
  · simp; omega
  · simp; omega

/-- The stack is cut to the capacity (R40). -/
theorem length_clipStack_le {depth : StackDepth} {d : Nat} (h : depth = .bounded d) (st : List Word) :
    (clipStack depth st).length ≤ d := by
  subst h
  simp [clipStack, List.length_take]

end Sys2Proof.Machine
end

