-- ==== Sys2Proof/Laws/Memory.lean ====
section
/-! SUPPORT. Memory: a read after a write, the canonical form, and the accesses of a state. -/

namespace Sys2Proof.Machine

/-! ## The cell list -/

theorem Memory.lookup_eraseCell (m : Memory) (a b : Nat) :
    Memory.lookup (Memory.eraseCell m a) b = if b = a then none else Memory.lookup m b := by
  induction m with
  | nil => simp [Memory.eraseCell, Memory.lookup]
  | cons c m ih =>
    obtain ⟨k, v⟩ := c
    simp only [Memory.eraseCell]
    split
    · rename_i h; subst h
      rw [ih]
      by_cases hb : b = a <;> simp [Memory.lookup, hb]
    · rename_i h
      simp only [Memory.lookup, ih]
      by_cases hb : b = a
      · subst hb; simp [h]
      · simp [hb]

theorem Memory.lookup_insertCell (m : Memory) (a b : Nat) (v : Byte) :
    Memory.lookup (Memory.insertCell m a v) b = if b = a then some v else Memory.lookup m b := by
  induction m with
  | nil => simp [Memory.insertCell, Memory.lookup]
  | cons c m ih =>
    obtain ⟨k, w⟩ := c
    simp only [Memory.insertCell]
    split
    · simp [Memory.lookup]
    · split
      · rename_i h; subst h
        by_cases hb : b = a <;> simp [Memory.lookup, hb]
      · rename_i h
        simp only [Memory.lookup, ih]
        by_cases hb : b = a
        · subst hb; simp [h]
        · simp [hb]

/-- Reading after a write: the byte written at its own address, and everywhere else what was there. -/
theorem Memory.read_write (g : Vector (Vector Byte 5) 16) (m : Memory) (a b : Nat) (v : Byte) :
    Memory.read g (Memory.write g m a v) b = if b = a then v else Memory.read g m b := by
  unfold Memory.read Memory.write
  split
  · rename_i h
    rw [Memory.lookup_eraseCell]
    by_cases hb : b = a <;> simp [hb, h]
  · rw [Memory.lookup_insertCell]
    by_cases hb : b = a <;> simp [hb]

/-! ## The canonical form -/

theorem Memory.wfFrom_mono {g : Vector (Vector Byte 5) 16} {m : Memory} {lo hi : Nat} (h : lo ≤ hi)
    (w : Memory.wfFrom g hi m = true) : Memory.wfFrom g lo m = true := by
  cases m with
  | nil => rfl
  | cons c m =>
    obtain ⟨a, v⟩ := c
    simp only [Memory.wfFrom, Bool.and_eq_true, decide_eq_true_eq] at w ⊢
    exact ⟨⟨⟨by omega, w.1.1.2⟩, w.1.2⟩, w.2⟩

theorem Memory.wfFrom_eraseCell {g : Vector (Vector Byte 5) 16} {m : Memory} {lo : Nat} (a : Nat)
    (w : Memory.wfFrom g lo m = true) : Memory.wfFrom g lo (Memory.eraseCell m a) = true := by
  induction m generalizing lo with
  | nil => rfl
  | cons c m ih =>
    obtain ⟨b, v⟩ := c
    simp only [Memory.wfFrom, Bool.and_eq_true, decide_eq_true_eq] at w
    simp only [Memory.eraseCell]
    split
    · exact Memory.wfFrom_mono (by omega) (ih w.2)
    · simp only [Memory.wfFrom, Bool.and_eq_true, decide_eq_true_eq]
      exact ⟨w.1, ih w.2⟩

theorem Memory.wfFrom_insertCell {g : Vector (Vector Byte 5) 16} {m : Memory} {lo a : Nat} {v : Byte}
    (hlo : lo ≤ a) (ha : a < memSize) (hv : v ≠ Memory.unlisted g a) (w : Memory.wfFrom g lo m = true) :
    Memory.wfFrom g lo (Memory.insertCell m a v) = true := by
  induction m generalizing lo with
  | nil => simp [Memory.insertCell, Memory.wfFrom, hlo, ha, hv]
  | cons c m ih =>
    obtain ⟨b, x⟩ := c
    simp only [Memory.wfFrom, Bool.and_eq_true, decide_eq_true_eq] at w
    simp only [Memory.insertCell]
    split
    · simp only [Memory.wfFrom, Bool.and_eq_true, decide_eq_true_eq]
      exact ⟨⟨⟨hlo, ha⟩, hv⟩, ⟨⟨by omega, w.1.1.2⟩, w.1.2⟩, w.2⟩
    · split
      · rename_i h; subst h
        simp only [Memory.wfFrom, Bool.and_eq_true, decide_eq_true_eq]
        exact ⟨⟨⟨hlo, ha⟩, hv⟩, w.2⟩
      · simp only [Memory.wfFrom, Bool.and_eq_true, decide_eq_true_eq]
        exact ⟨w.1, ih (by omega) w.2⟩

/-- A write inside memory keeps the canonical form. -/
theorem Memory.wf_write {g : Vector (Vector Byte 5) 16} {m : Memory} {a : Nat} (v : Byte) (ha : a < memSize)
    (w : Memory.wf g m = true) : Memory.wf g (Memory.write g m a v) = true := by
  unfold Memory.write
  split
  · exact Memory.wfFrom_eraseCell a w
  · exact Memory.wfFrom_insertCell (Nat.zero_le a) ha ‹_› w

theorem Memory.wf_foldl_write {g : Vector (Vector Byte 5) 16} (f : Nat → Byte) (l : List Nat) (m : Memory)
    (hl : ∀ a ∈ l, a < memSize) (w : Memory.wf g m = true) :
    Memory.wf g (l.foldl (fun m a => Memory.write g m a (f a)) m) = true := by
  induction l generalizing m with
  | nil => exact w
  | cons a l ih =>
    exact ih _ (fun b hb => hl b (List.mem_cons_of_mem a hb)) (Memory.wf_write _ (hl a List.mem_cons_self) w)

/-- The memory of given contents is in canonical form. -/
theorem Memory.wf_ofContents (g : Vector (Vector Byte 5) 16) (f : Nat → Byte) :
    Memory.wf g (Memory.ofContents g f) = true :=
  Memory.wf_foldl_write f _ [] (fun _ h => List.mem_range.mp h) rfl

/-- Above `lo`, a canonical memory lists nothing below it. -/
theorem Memory.lookup_of_wfFrom_lt {g : Vector (Vector Byte 5) 16} {m : Memory} {lo a : Nat}
    (w : Memory.wfFrom g lo m = true) (h : a < lo) : Memory.lookup m a = none := by
  induction m generalizing lo with
  | nil => rfl
  | cons c m ih =>
    obtain ⟨b, v⟩ := c
    simp only [Memory.wfFrom, Bool.and_eq_true, decide_eq_true_eq] at w
    have hne : a ≠ b := by omega
    simp only [Memory.lookup, if_neg hne]
    exact ih w.2 (by omega)

/-! ## Accesses of a state -/

theorem State.memRead_of_lt {s : State} {a : Nat} (h : a < memSize) : s.memRead a = .ok (s.byteAt a) := by
  simp [State.memRead, h]

theorem State.memRead_of_ge {s : State} {a : Nat} (h : memSize ≤ a) : s.memRead a = .error (.memoryOutOfBounds a) := by
  simp [State.memRead, Nat.not_lt.mpr h]

/-- All a read can do. -/
theorem State.memRead_cases (s : State) (a : Nat) :
    (a < memSize ∧ s.memRead a = .ok (s.byteAt a)) ∨
    (memSize ≤ a ∧ s.memRead a = .error (.memoryOutOfBounds a)) := by
  rcases Nat.lt_or_ge a memSize with h | h
  · exact .inl ⟨h, State.memRead_of_lt h⟩
  · exact .inr ⟨h, State.memRead_of_ge h⟩

/-- All a write can do. -/
theorem State.memWrite_cases (s : State) (a : Nat) (v : Byte) :
    (a < memSize ∧ s.memWrite a v = .ok { s with mem := Memory.write s.cfg.glyphs s.mem a v }) ∨
    (memSize ≤ a ∧ s.memWrite a v = .error (.memoryOutOfBounds a)) := by
  rcases Nat.lt_or_ge a memSize with h | h
  · exact .inl ⟨h, by simp [State.memWrite, h]⟩
  · exact .inr ⟨h, by simp [State.memWrite, Nat.not_lt.mpr h]⟩

/-- All a fetch can do (R72, R264). -/
theorem State.fetch16_cases (s : State) (p : Nat) :
    (p + 1 < memSize ∧ s.fetch16 p = .ok (wordOfBytes (s.byteAt p) (s.byteAt (p + 1)))) ∨
    (p + 1 = memSize ∧ s.fetch16 p = .error (.memoryOutOfBounds memSize)) ∨
    (memSize ≤ p ∧ s.fetch16 p = .error (.memoryOutOfBounds p)) := by
  unfold State.fetch16
  rcases Nat.lt_or_ge p memSize with h | h
  · rcases Nat.lt_or_ge (p + 1) memSize with h' | h'
    · exact .inl ⟨h', by rw [State.memRead_of_lt h, State.memRead_of_lt h']⟩
    · have e : p + 1 = memSize := by omega
      refine .inr (.inl ⟨e, ?_⟩)
      rw [State.memRead_of_lt h, State.memRead_of_ge h', e]
  · exact .inr (.inr ⟨h, by rw [State.memRead_of_ge h]⟩)

theorem State.fetch16_ok_lt {s : State} {p : Nat} {ins : Word} (h : s.fetch16 p = .ok ins) : p + 1 < memSize := by
  rcases s.fetch16_cases p with ⟨h', _⟩ | ⟨_, h'⟩ | ⟨_, h'⟩
  · exact h'
  all_goals rw [h'] at h; cases h

theorem State.fetch16_congr {s t : State} (hm : t.mem = s.mem) (hc : t.cfg = s.cfg) (p : Nat) :
    t.fetch16 p = s.fetch16 p := by
  simp [State.fetch16, State.memRead, State.byteAt, hm, hc]

/-! ## Bytes placed by the host -/

/-- Placing bytes that fit: each is at its address, every other byte stays, nothing but memory changes, and the canonical form
is kept (R286). -/
theorem State.pokeBytes_fits (bytes : List Byte) (s : State) (a : Nat) (h : a + bytes.length ≤ memSize) :
    ∃ m, s.pokeBytes a bytes = { s with mem := m } ∧
      (∀ (k : Nat) (hk : k < bytes.length), Memory.read s.cfg.glyphs m (a + k) = bytes[k]) ∧
      (∀ b, b < a ∨ a + bytes.length ≤ b → Memory.read s.cfg.glyphs m b = s.byteAt b) ∧
      (Memory.wf s.cfg.glyphs s.mem = true → Memory.wf s.cfg.glyphs m = true) := by
  induction bytes generalizing s a with
  | nil => exact ⟨s.mem, rfl, by simp, fun _ _ => rfl, id⟩
  | cons v bytes ih =>
    rw [List.length_cons] at h
    have ha : a < memSize := by omega
    obtain ⟨m, hm, hin, hout, hwf⟩ := ih { s with mem := Memory.write s.cfg.glyphs s.mem a v } (a + 1) (by omega)
    refine ⟨m, ?_, ?_, ?_, fun w => hwf (Memory.wf_write _ ha w)⟩
    · unfold State.pokeBytes
      rw [if_pos ha]
      exact hm
    · intro k hk
      cases k with
      | zero =>
        refine (hout a (.inl (by omega))).trans ?_
        simp [State.byteAt, Memory.read_write]
      | succ k =>
        have e : a + (k + 1) = a + 1 + k := by omega
        rw [e]
        exact hin k (by simpa using hk)
    · intro b hb
      rw [List.length_cons] at hb
      refine (hout b (by omega)).trans ?_
      have hne : b ≠ a := by omega
      simp [State.byteAt, Memory.read_write, hne]

end Sys2Proof.Machine
end

