-- ==== Sys2Proof/Laws/Draw.lean ====
section
/-! SUPPORT. The display and the draw loops (R221 to R225): which cells they toggle and what they record. -/

namespace Sys2Proof.Machine

/-- Toggling inverts one cell and no other (R44). -/
theorem Display.pixel_toggle (d : Display) (y r : Fin 32) (x c : Fin 64) :
    Display.pixel (Display.toggle d y x) r c = (Display.pixel d r c ^^ decide (r = y ∧ c = x)) := by
  obtain ⟨y, hy⟩ := y
  obtain ⟨r, hr⟩ := r
  obtain ⟨x, hx⟩ := x
  obtain ⟨c, hc⟩ := c
  simp only [Display.pixel, Display.toggle, Fin.getElem_fin, Vector.getElem_set, Fin.mk.injEq]
  by_cases h1 : y = r
  · subst h1
    by_cases h2 : x = c
    · subst h2; simp
    · simp [h2, Ne.symm h2]
  · simp [h1, Ne.symm h1]

@[simp] theorem Display.pixel_blank (r : Fin 32) (c : Fin 64) : Display.pixel Display.blank r c = false := by
  simp [Display.pixel, Display.blank]

/-- The cells of one display row that a sprite row covers, from some columns. -/
def ColumnsCover (row : Byte) (x0 : Nat) (cols : List Nat) (c : Fin 64) : Prop :=
  ∃ col ∈ cols, spriteBit row col = true ∧ x0 + col = c.val

/-- The inner loop over rising columns inverts exactly the covered cells of its row, and records a collision exactly if one of
them was lit (R222, R224). -/
theorem drawColumns_spec (row : Byte) (x0 : Nat) (y : Fin 32) (cols : List Nat) (d : Display) (hit : Bool)
    (hc : cols.Pairwise (· < ·)) :
    (∀ r c, Display.pixel (drawColumns row x0 y cols d hit).1 r c = true ↔
      ((Display.pixel d r c = true) ↔ ¬(r = y ∧ ColumnsCover row x0 cols c))) ∧
    ((drawColumns row x0 y cols d hit).2 = true ↔
      (hit = true ∨ ∃ c, ColumnsCover row x0 cols c ∧ Display.pixel d y c = true)) := by
  induction cols generalizing d hit with
  | nil => simp [drawColumns, ColumnsCover]
  | cons col cols ih =>
    obtain ⟨hlt, hc⟩ := List.pairwise_cons.mp hc
    simp only [drawColumns]
    by_cases hb : spriteBit row col = true
    · simp only [hb, if_true]
      by_cases hx : x0 + col < 64
      · simp only [hx, dite_true]
        obtain ⟨ihp, ihh⟩ := ih (Display.toggle d y ⟨x0 + col, hx⟩) (hit || Display.pixel d y ⟨x0 + col, hx⟩) hc
        have hnot : ∀ c : Fin 64, c = ⟨x0 + col, hx⟩ → ¬ColumnsCover row x0 cols c := by
          rintro c rfl ⟨k, hk, _, e⟩
          have := hlt k hk
          simp only at e
          omega
        have hcov : ∀ c : Fin 64, ColumnsCover row x0 (col :: cols) c ↔
            (c = ⟨x0 + col, hx⟩ ∨ ColumnsCover row x0 cols c) := by
          intro c
          simp only [ColumnsCover, List.mem_cons, exists_eq_or_imp, hb, true_and, Fin.ext_iff]
          exact or_congr_left eq_comm
        refine ⟨fun r c => ?_, ?_⟩
        · rw [ihp, Display.pixel_toggle, hcov]
          by_cases hc' : c = ⟨x0 + col, hx⟩
          · have := hnot c hc'
            by_cases hr : r = y <;> cases hd : Display.pixel d r c <;> simp [hc', hr] <;> simp_all
          · simp [hc']
        · rw [ihh, Bool.or_eq_true, or_assoc]
          refine or_congr_right ?_
          constructor
          · rintro (h | ⟨c, hcv, hp⟩)
            · exact ⟨_, (hcov _).mpr (.inl rfl), h⟩
            · refine ⟨c, (hcov c).mpr (.inr hcv), ?_⟩
              have hne : c ≠ ⟨x0 + col, hx⟩ := fun e => hnot c e hcv
              simpa [Display.pixel_toggle, hne] using hp
          · rintro ⟨c, hcv, hp⟩
            by_cases hc' : c = ⟨x0 + col, hx⟩
            · exact .inl (hc' ▸ hp)
            · rcases (hcov c).mp hcv with e | hcv
              · exact absurd e hc'
              · exact .inr ⟨c, hcv, by simpa [Display.pixel_toggle, hc'] using hp⟩
      · have hnone : ∀ c : Fin 64, ¬ColumnsCover row x0 (col :: cols) c := by
          rintro c ⟨k, hk, _, e⟩
          have hk' : col ≤ k := by
            rcases List.mem_cons.mp hk with e | hk
            · omega
            · exact Nat.le_of_lt (hlt k hk)
          have := c.isLt
          omega
        simp [hx, hnone]
    · have hcov : ∀ c, ColumnsCover row x0 (col :: cols) c ↔ ColumnsCover row x0 cols c := by
        intro c
        simp [ColumnsCover, hb]
      simp only [hb, Bool.false_eq_true, if_false, hcov]
      exact ih d hit hc

/-- All the outer loop can do: every row is in memory and it ends with a display and a flag, or it fails with an address
outside memory (R225). -/
theorem drawRows_cases (s : State) (x0 y0 : Nat) (ks : List Nat) (d : Display) (hit : Bool) :
    ((∀ k ∈ ks, s.indexed k < memSize) ∧ ∃ d' hit', drawRows s x0 y0 ks d hit = .ok (d', hit')) ∨
    ∃ a, drawRows s x0 y0 ks d hit = .error (.memoryOutOfBounds a) := by
  induction ks generalizing d hit with
  | nil => exact .inl ⟨by simp, d, hit, rfl⟩
  | cons k ks ih =>
    rcases s.memRead_cases (s.indexed k) with ⟨hk, hr⟩ | ⟨_, hr⟩
    · simp only [drawRows, hr]
      rcases ih (drawColumns (s.byteAt (s.indexed k)) x0 (spriteRow y0 k) (List.range 8) d hit).1
          (drawColumns (s.byteAt (s.indexed k)) x0 (spriteRow y0 k) (List.range 8) d hit).2 with ⟨h, hd⟩ | ha
      · refine .inl ⟨fun j hj => ?_, hd⟩
        rcases List.mem_cons.mp hj with e | hj
        · exact e ▸ hk
        · exact h j hj
      · exact .inr ha
    · exact .inr ⟨s.indexed k, by simp only [drawRows, hr]⟩

/-- The outer loop reads nothing of the state but I and memory. -/
theorem drawRows_congr {s t : State} (hI : t.I = s.I) (hb : ∀ a, t.byteAt a = s.byteAt a) (x0 y0 : Nat) (ks : List Nat)
    (d : Display) (hit : Bool) : drawRows t x0 y0 ks d hit = drawRows s x0 y0 ks d hit := by
  induction ks generalizing d hit with
  | nil => rfl
  | cons k ks ih =>
    have hk : t.indexed k = s.indexed k := by simp [State.indexed, hI]
    have hr : t.memRead (s.indexed k) = s.memRead (s.indexed k) := by unfold State.memRead; rw [hb]
    unfold drawRows
    rw [hk, hr]
    rcases s.memRead_cases (s.indexed k) with ⟨_, h⟩ | ⟨_, h⟩ <;> simp only [h, ih]

/-- A draw that reaches an address outside memory fails with the first such address. -/
theorem drawRows_error (s : State) (x0 y0 : Nat) (before : List Nat) (k : Nat) (after : List Nat) (d : Display) (hit : Bool)
    (h : ∀ j ∈ before, s.indexed j < memSize) (hk : memSize ≤ s.indexed k) :
    drawRows s x0 y0 (before ++ k :: after) d hit = .error (.memoryOutOfBounds (s.indexed k)) := by
  induction before generalizing d hit with
  | nil => simp [drawRows, State.memRead_of_ge hk]
  | cons j before ih =>
    simp only [List.cons_append, drawRows, State.memRead_of_lt (h j List.mem_cons_self)]
    exact ih _ _ (fun q hq => h q (List.mem_cons_of_mem j hq))

/-- The cells that some sprite rows cover. -/
def RowsCover (s : State) (x0 y0 : Nat) (ks : List Nat) (r : Fin 32) (c : Fin 64) : Prop :=
  ∃ k ∈ ks, r = spriteRow y0 k ∧ ColumnsCover (s.byteAt (s.indexed k)) x0 (List.range 8) c

/-- The outer loop over sprite rows that fall on different display rows inverts exactly the covered cells, and records a
collision exactly if one of them was lit (R223, R224). -/
theorem drawRows_spec (s : State) (x0 y0 : Nat) (ks : List Nat) (d : Display) (hit : Bool)
    (hks : ks.Pairwise (fun j k => spriteRow y0 j ≠ spriteRow y0 k)) (h : ∀ k ∈ ks, s.indexed k < memSize) :
    ∃ d' hit', drawRows s x0 y0 ks d hit = .ok (d', hit') ∧
      (∀ r c, Display.pixel d' r c = true ↔ ((Display.pixel d r c = true) ↔ ¬RowsCover s x0 y0 ks r c)) ∧
      (hit' = true ↔ (hit = true ∨ ∃ r c, RowsCover s x0 y0 ks r c ∧ Display.pixel d r c = true)) := by
  induction ks generalizing d hit with
  | nil => exact ⟨d, hit, rfl, by simp [RowsCover], by simp [RowsCover]⟩
  | cons k ks ih =>
    obtain ⟨hne, hks⟩ := List.pairwise_cons.mp hks
    have hk := h k List.mem_cons_self
    obtain ⟨hp, hh⟩ := drawColumns_spec (s.byteAt (s.indexed k)) x0 (spriteRow y0 k) (List.range 8) d hit
      List.pairwise_lt_range
    obtain ⟨d', hit', he, hp', hh'⟩ := ih
      (drawColumns (s.byteAt (s.indexed k)) x0 (spriteRow y0 k) (List.range 8) d hit).1
      (drawColumns (s.byteAt (s.indexed k)) x0 (spriteRow y0 k) (List.range 8) d hit).2 hks
      (fun j hj => h j (List.mem_cons_of_mem k hj))
    have hcov : ∀ r c, RowsCover s x0 y0 (k :: ks) r c ↔
        ((r = spriteRow y0 k ∧ ColumnsCover (s.byteAt (s.indexed k)) x0 (List.range 8) c) ∨ RowsCover s x0 y0 ks r c) := by
      intro r c
      simp [RowsCover]
    have hdis : ∀ r c, r = spriteRow y0 k → ¬RowsCover s x0 y0 ks r c := by
      rintro r c e ⟨j, hj, e', _⟩
      exact hne j hj (e.symm.trans e')
    refine ⟨d', hit', by simp only [drawRows, State.memRead_of_lt hk]; exact he, fun r c => ?_, ?_⟩
    · rw [hp', hp, hcov]
      by_cases hr : r = spriteRow y0 k
      · have := hdis r c hr
        simp [this]
      · simp [hr]
    · rw [hh', hh, or_assoc]
      refine or_congr_right ?_
      constructor
      · rintro (⟨c, hc, hl⟩ | ⟨r, c, hc, hl⟩)
        · exact ⟨spriteRow y0 k, c, (hcov _ _).mpr (.inl ⟨rfl, hc⟩), hl⟩
        · have hr : r ≠ spriteRow y0 k := fun e => hdis r c e hc
          refine ⟨r, c, (hcov _ _).mpr (.inr hc), ?_⟩
          simpa [hp, hr] using hl
      · rintro ⟨r, c, hc, hl⟩
        by_cases hr : r = spriteRow y0 k
        · rcases (hcov r c).mp hc with ⟨_, hc⟩ | hc
          · exact .inl ⟨c, hc, hr ▸ hl⟩
          · exact absurd hc (hdis r c hr)
        · rcases (hcov r c).mp hc with ⟨e, _⟩ | hc
          · exact absurd e hr
          · exact .inr ⟨r, c, hc, by simpa [hp, hr] using hl⟩

end Sys2Proof.Machine
end

