-- ==== Sys2Proof/Laws/Transfer.lean ====
section
/-! SUPPORT. The register transfers: what the loops of R242 and R243 do, all of it. -/

namespace Sys2Proof.Machine

theorem mem_regsUpTo (x r : Reg) : r ∈ regsUpTo x ↔ r ≤ x := by
  revert x r; decide

@[simp] theorem State.indexed_setReg (s : State) (r : Reg) (v : Byte) (k : Nat) :
    (s.setReg r v).indexed k = s.indexed k := rfl

theorem State.indexed_inj {s : State} {j k : Nat} (h : s.indexed j = s.indexed k) : j = k :=
  Nat.add_left_cancel h

/-! ## Storing -/

/-- A store whose addresses all lie in memory: each register's byte is at its address, every other byte stays, and nothing
but memory changes. -/
theorem storeRegs_ok (rs : List Reg) (s : State) (h : ∀ r ∈ rs, s.indexed r.val < memSize) :
    ∃ m, storeRegs rs s = .ok { s with mem := m } ∧
      (∀ r ∈ rs, Memory.read s.cfg.glyphs m (s.indexed r.val) = s.reg r) ∧
      (∀ a, (∀ r ∈ rs, a ≠ s.indexed r.val) → Memory.read s.cfg.glyphs m a = s.byteAt a) ∧
      (Memory.wf s.cfg.glyphs s.mem = true → Memory.wf s.cfg.glyphs m = true) := by
  induction rs generalizing s with
  | nil => exact ⟨s.mem, rfl, by simp, fun _ _ => rfl, id⟩
  | cons r rs ih =>
    have hr : s.indexed r.val < memSize := h r List.mem_cons_self
    obtain ⟨m, hm, hin, hout, hwf⟩ :=
      ih { s with mem := Memory.write s.cfg.glyphs s.mem (s.indexed r.val) (s.reg r) }
        (fun q hq => h q (List.mem_cons_of_mem r hq))
    refine ⟨m, ?_, ?_, ?_, fun w => hwf (Memory.wf_write _ hr w)⟩
    · simp only [storeRegs, State.memWrite, if_pos hr]
      exact hm
    · intro q hq
      by_cases hmem : q ∈ rs
      · exact hin q hmem
      · have e : q = r := by simpa [hmem] using hq
        subst e
        refine (hout (s.indexed q.val) ?_).trans ?_
        · intro p hp e
          exact hmem (Fin.ext (State.indexed_inj e) ▸ hp)
        · simp [State.byteAt, Memory.read_write]
    · intro a ha
      refine (hout a (fun q hq => ha q (List.mem_cons_of_mem r hq))).trans ?_
      have hne : a ≠ s.indexed r.val := ha r List.mem_cons_self
      simp [State.byteAt, Memory.read_write, hne]

/-- A store that reaches an address outside memory fails with the first such address. -/
theorem storeRegs_error (before : List Reg) (r : Reg) (after : List Reg) (s : State)
    (h : ∀ q ∈ before, s.indexed q.val < memSize) (hr : memSize ≤ s.indexed r.val) :
    storeRegs (before ++ r :: after) s = .error (.memoryOutOfBounds (s.indexed r.val)) := by
  induction before generalizing s with
  | nil => simp [storeRegs, State.memWrite, Nat.not_lt.mpr hr]
  | cons q before ih =>
    have hq : s.indexed q.val < memSize := h q List.mem_cons_self
    simp only [List.cons_append, storeRegs, State.memWrite, if_pos hq]
    exact ih _ (fun p hp => h p (List.mem_cons_of_mem q hp)) hr

/-- All a store can do. -/
theorem storeRegs_cases (rs : List Reg) (s : State) :
    (∃ m, storeRegs rs s = .ok { s with mem := m } ∧
      (Memory.wf s.cfg.glyphs s.mem = true → Memory.wf s.cfg.glyphs m = true)) ∨
    ∃ a, storeRegs rs s = .error (.memoryOutOfBounds a) := by
  induction rs generalizing s with
  | nil => exact .inl ⟨s.mem, rfl, id⟩
  | cons r rs ih =>
    rcases s.memWrite_cases (s.indexed r.val) (s.reg r) with ⟨hr, hw⟩ | ⟨_, hw⟩
    · rcases ih { s with mem := Memory.write s.cfg.glyphs s.mem (s.indexed r.val) (s.reg r) } with ⟨m, hm, hwf⟩ | ⟨a, ha⟩
      · exact .inl ⟨m, by simp only [storeRegs, hw]; exact hm, fun w => hwf (Memory.wf_write _ hr w)⟩
      · exact .inr ⟨a, by simp only [storeRegs, hw]; exact ha⟩
    · exact .inr ⟨s.indexed r.val, by simp only [storeRegs, hw]⟩

/-- A store does not read a register outside its list. -/
theorem storeRegs_setReg (rs : List Reg) (s : State) {r : Reg} (v : Byte) (h : r ∉ rs) :
    storeRegs rs (s.setReg r v) = (storeRegs rs s).map (fun t => t.setReg r v) := by
  induction rs generalizing s with
  | nil => rfl
  | cons q rs ih =>
    have hq : q ≠ r := fun e => h (e ▸ List.mem_cons_self)
    have h' : r ∉ rs := fun hm => h (List.mem_cons_of_mem q hm)
    unfold storeRegs
    rw [State.indexed_setReg, State.reg_setReg_ne _ _ hq]
    by_cases ha : s.indexed q.val < memSize
    · simp only [State.memWrite, if_pos ha]
      exact ih { s with mem := Memory.write s.cfg.glyphs s.mem (s.indexed q.val) (s.reg q) } h'
    · simp only [State.memWrite, if_neg ha, Except.map]

/-! ## Loading -/

/-- A load whose addresses all lie in memory: each register named takes its byte, every other register stays, and nothing
but the registers changes. -/
theorem loadRegs_ok (rs : List Reg) (s : State) (h : ∀ r ∈ rs, s.indexed r.val < memSize) :
    ∃ V, loadRegs rs s = .ok { s with V := V } ∧
      (∀ r : Reg, r ∈ rs → V[r] = s.byteAt (s.indexed r.val)) ∧ (∀ r : Reg, r ∉ rs → V[r] = s.V[r]) := by
  induction rs generalizing s with
  | nil => exact ⟨s.V, rfl, by simp, fun _ _ => rfl⟩
  | cons r rs ih =>
    have hr : s.indexed r.val < memSize := h r List.mem_cons_self
    obtain ⟨V, hV, hin, hout⟩ :=
      ih (s.setReg r (s.byteAt (s.indexed r.val))) (fun q hq => h q (List.mem_cons_of_mem r hq))
    refine ⟨V, ?_, ?_, ?_⟩
    · simp only [loadRegs, State.memRead_of_lt hr]
      exact hV
    · intro q hq
      by_cases hmem : q ∈ rs
      · exact hin q hmem
      · have e : q = r := by simpa [hmem] using hq
        subst e
        exact (hout q hmem).trans (State.reg_setReg_same s q _)
    · intro q hq
      have hne : q ≠ r := fun e => hq (e ▸ List.mem_cons_self)
      exact (hout q (fun hm => hq (List.mem_cons_of_mem r hm))).trans (State.reg_setReg_ne s _ hne)

/-- A load that reaches an address outside memory fails with the first such address. -/
theorem loadRegs_error (before : List Reg) (r : Reg) (after : List Reg) (s : State)
    (h : ∀ q ∈ before, s.indexed q.val < memSize) (hr : memSize ≤ s.indexed r.val) :
    loadRegs (before ++ r :: after) s = .error (.memoryOutOfBounds (s.indexed r.val)) := by
  induction before generalizing s with
  | nil => simp [loadRegs, State.memRead_of_ge hr]
  | cons q before ih =>
    have hq : s.indexed q.val < memSize := h q List.mem_cons_self
    simp only [List.cons_append, loadRegs, State.memRead_of_lt hq]
    exact ih _ (fun p hp => h p (List.mem_cons_of_mem q hp)) hr

/-- All a load can do. -/
theorem loadRegs_cases (rs : List Reg) (s : State) :
    (∃ V, loadRegs rs s = .ok { s with V := V }) ∨ ∃ a, loadRegs rs s = .error (.memoryOutOfBounds a) := by
  induction rs generalizing s with
  | nil => exact .inl ⟨s.V, rfl⟩
  | cons r rs ih =>
    rcases s.memRead_cases (s.indexed r.val) with ⟨_, hw⟩ | ⟨_, hw⟩
    · rcases ih (s.setReg r (s.byteAt (s.indexed r.val))) with ⟨V, hV⟩ | ⟨a, ha⟩
      · exact .inl ⟨V, by simp only [loadRegs, hw]; exact hV⟩
      · exact .inr ⟨a, by simp only [loadRegs, hw]; exact ha⟩
    · exact .inr ⟨s.indexed r.val, by simp only [loadRegs, hw]⟩

/-- A load neither reads nor writes a register outside its list. -/
theorem loadRegs_setReg (rs : List Reg) (s : State) {r : Reg} (v : Byte) (h : r ∉ rs) :
    loadRegs rs (s.setReg r v) = (loadRegs rs s).map (fun t => t.setReg r v) := by
  induction rs generalizing s with
  | nil => rfl
  | cons q rs ih =>
    have hq : q ≠ r := fun e => h (e ▸ List.mem_cons_self)
    have h' : r ∉ rs := fun hm => h (List.mem_cons_of_mem q hm)
    have e : (s.setReg r v).memRead (s.indexed q.val) = s.memRead (s.indexed q.val) := rfl
    unfold loadRegs
    rw [State.indexed_setReg, e]
    rcases s.memRead_cases (s.indexed q.val) with ⟨_, h1⟩ | ⟨_, h1⟩
    · simp only [h1]
      rw [State.setReg_comm _ _ _ hq, ih _ h']
    · simp only [h1, Except.map]

theorem loadRegs_keeps {rs : List Reg} {s t : State} {r : Reg} (h : loadRegs rs s = .ok t) (hr : r ∉ rs) :
    t.reg r = s.reg r := by
  induction rs generalizing s with
  | nil => cases h; rfl
  | cons q rs ih =>
    have hq : r ≠ q := fun e => hr (e ▸ List.mem_cons_self)
    unfold loadRegs at h
    rcases s.memRead_cases (s.indexed q.val) with ⟨_, h1⟩ | ⟨_, h1⟩
    · simp only [h1] at h
      exact (ih h (fun hm => hr (List.mem_cons_of_mem q hm))).trans (State.reg_setReg_ne s _ hq)
    · simp only [h1] at h
      cases h

end Sys2Proof.Machine
end

