-- ==== Sys2Proof/Laws/Step.lean ====
section
/-! SUPPORT. What an instruction, a step and a run can do, said once. -/

namespace Sys2Proof.Machine

/-! ## The meanings that are not one line -/

theorem execRet_empty {u : Fin 16} {s : State} (h : s.stack = []) :
    execRet u s = .next (s.report (.stackUnderflow (encode (.ret u)))) := by
  simp [execRet, State.pop, h]

theorem execRet_cons {u : Fin 16} {s : State} {top : Word} {rest : List Word} (h : s.stack = top :: rest) :
    execRet u s = .next { s with pc := top, stack := rest } := by
  simp [execRet, State.pop, h, State.setPc]

theorem execCall_cases (nnn : Addr12) (s : State) :
    (stackFull s.cfg.stackDepth s.stack.length = true ∧
      execCall nnn s = .next (s.report (.stackOverflow (encode (.call nnn))))) ∨
    (stackFull s.cfg.stackDepth s.stack.length = false ∧
      execCall nnn s = .next ((s.push s.pc).setPc (addr16 nnn))) := by
  cases h : stackFull s.cfg.stackDepth s.stack.length <;> simp [execCall, h]

theorem execDump_cases (x : Reg) (s : State) :
    (∃ m, execDump x s = .next { s with mem := m } ∧
      (Memory.wf s.cfg.glyphs s.mem = true → Memory.wf s.cfg.glyphs m = true)) ∨
    ∃ a, execDump x s = .next (s.haltInside (.memoryOutOfBounds a)) := by
  rcases storeRegs_cases (regsUpTo x) s with ⟨m, hm, hw⟩ | ⟨a, ha⟩
  · exact .inl ⟨m, by simp [execDump, hm], hw⟩
  · exact .inr ⟨a, by simp [execDump, ha]⟩

theorem execLoad_cases (x : Reg) (s : State) :
    (∃ V, execLoad x s = .next { s with V := V }) ∨
    ∃ a, execLoad x s = .next (s.haltInside (.memoryOutOfBounds a)) := by
  rcases loadRegs_cases (regsUpTo x) s with ⟨V, hV⟩ | ⟨a, ha⟩
  · exact .inl ⟨V, by simp [execLoad, hV]⟩
  · exact .inr ⟨a, by simp [execLoad, ha]⟩

theorem execDrw_cases (x y : Reg) (n : Fin 16) (s : State) :
    (∃ d hit, execDrw x y n s = .next { s.setReg VF (flagByte hit) with disp := d }) ∨
    ∃ a, execDrw x y n s = .next (s.haltInside (.memoryOutOfBounds a)) := by
  rcases drawRows_cases s (s.spriteX x) (s.spriteY y) (List.range n.val) s.disp false with ⟨_, d, hit, h⟩ | ⟨a, ha⟩
  · exact .inl ⟨d, hit, by simp [execDrw, h]⟩
  · exact .inr ⟨a, by simp [execDrw, ha]⟩

/-! ## The step -/

theorem step_halted {s : State} (h : s.halted = true) : step s = .fault .halted := by
  simp [step, h]

/-- All a step of a machine that is not halted can do: halt on the fetch, report an Unsupported word, or execute the
instruction it fetched. -/
theorem step_cases {s : State} (h : s.halted = false) :
    (∃ a, 0x0FFF ≤ s.pc.toNat ∧ s.fetch16 s.pc.toNat = .error (.memoryOutOfBounds a) ∧
      step s = .next (s.haltOnFetch (.memoryOutOfBounds a))) ∨
    (∃ ins, s.pc.toNat ≤ 0x0FFE ∧ s.fetch16 s.pc.toNat = .ok ins ∧ classify s.cfg ins = .error (.unsupported ins) ∧
      step s = .next (s.advancePc.report (.unsupportedOpcode ins))) ∨
    (∃ ins i, s.pc.toNat ≤ 0x0FFE ∧ s.fetch16 s.pc.toNat = .ok ins ∧ classify s.cfg ins = .ok i ∧
      step s = exec i s.advancePc) := by
  have bad : ∀ a, 0x0FFF ≤ s.pc.toNat → s.fetch16 s.pc.toNat = .error (.memoryOutOfBounds a) →
      step s = .next (s.haltOnFetch (.memoryOutOfBounds a)) := by
    intro a _ hf
    simp [step, h, hf]
  have hm : memSize = 4096 := rfl
  rcases s.fetch16_cases s.pc.toNat with ⟨hp, hf⟩ | ⟨hp, hf⟩ | ⟨hp, hf⟩
  · have hp' : s.pc.toNat ≤ 0x0FFE := by omega
    rcases classify_cases (wordOfBytes (s.byteAt s.pc.toNat) (s.byteAt (s.pc.toNat + 1))) s.cfg with
      ⟨i, _, _, hc⟩ | hc
    · exact .inr (.inr ⟨_, i, hp', hf, hc, by simp [step, h, hf, hc]⟩)
    · exact .inr (.inl ⟨_, hp', hf, hc, by simp [step, h, hf, hc]⟩)
  · exact .inl ⟨_, by omega, hf, bad _ (by omega) hf⟩
  · exact .inl ⟨_, by omega, hf, bad _ (by omega) hf⟩

theorem step_of_fetches {s : State} {i : Instr} (h : Fetches s i) : step s = exec i s.advancePc := by
  obtain ⟨hh, ins, hf, hc⟩ := h
  simp [step, hh, hf, hc]

/-- A cycle fetches at most one instruction. -/
theorem fetches_unique {s : State} {i j : Instr} (hi : Fetches s i) (hj : Fetches s j) : i = j := by
  obtain ⟨_, ins, hf, hc⟩ := hi
  obtain ⟨_, ins', hf', hc'⟩ := hj
  rw [hf] at hf'
  cases hf'
  rw [hc] at hc'
  cases hc'
  rfl

/-! ## Runs -/

/-- A run of one more call: the run before it, then the call. -/
theorem hostRun_concat {cs : List HostCall} {c : HostCall} {s t u : State} {rs : List Reply} {r : Reply}
    (h : hostRun cs s = .next (t, rs)) (hc : hostCall c t = .next (u, r)) :
    hostRun (cs ++ [c]) s = .next (u, rs ++ [r]) := by
  induction cs generalizing s rs with
  | nil =>
    cases h
    simp [hostRun, hc]
  | cons d cs ih =>
    simp only [hostRun] at h
    split at h <;> try cases h
    rename_i t' r' hd
    split at h <;> cases h
    rename_i h'
    simp [hostRun, hd, ih h']

/-- All a run of one more call can do: the run before it answers next, and so does the call. -/
theorem of_hostRun_concat {cs : List HostCall} {c : HostCall} {s u : State} {rs : List Reply}
    (h : hostRun (cs ++ [c]) s = .next (u, rs)) :
    ∃ t rs' r, hostRun cs s = .next (t, rs') ∧ hostCall c t = .next (u, r) ∧ rs = rs' ++ [r] := by
  induction cs generalizing s rs with
  | nil =>
    simp only [List.nil_append, hostRun] at h
    split at h <;> cases h
    exact ⟨s, [], _, rfl, ‹_›, rfl⟩
  | cons d cs ih =>
    simp only [List.cons_append, hostRun] at h
    split at h <;> try cases h
    rename_i t' r' hd
    split at h <;> cases h
    rename_i h'
    obtain ⟨t, rs', r, ht, hc, rfl⟩ := ih h'
    exact ⟨t, r' :: rs', r, by simp [hostRun, hd, ht], hc, rfl⟩

@[simp] theorem firstOf_zero {α : Type} (f : Nat → α) : firstOf f 0 = [] := rfl

theorem firstOf_succ {α : Type} (f : Nat → α) (k : Nat) : firstOf f (k + 1) = firstOf f k ++ [f k] := by
  simp [firstOf, List.range_succ]

/-- A step that answers a next state started from a machine that is not halted. -/
theorem not_halted_of_step {s t : State} (h : step s = .next t) : s.halted = false := by
  cases hh : s.halted
  · rfl
  · rw [step_halted hh] at h; cases h

end Sys2Proof.Machine
end

