-- ==== Sys2Proof/Laws/Exec.lean ====
section
/-! SUPPORT. All an instruction can do, said once: it halts the machine inside, it reports one error and does nothing else, or
it has an effect in which each component has its writers. -/

namespace Sys2Proof.Machine

/-- An effect without an error: what each component can become, and by which instruction. -/
structure Ordinary (i : Instr) (s t : State) : Prop where
  faults : t.faults = s.faults
  halted : t.halted = s.halted
  cfg : t.cfg = s.cfg
  draws : t.draws = s.draws
  sound : t.ST = s.ST
  key : t.key = s.key
  delay : t.DT = s.DT ∨ ∃ x, i = .ldDTVx x ∧ t.DT = s.reg x
  index : t.I = s.I ∨ ∃ nnn, i = .ldI nnn ∧ t.I = addr16 nnn
  stack : t.stack = s.stack ∨
    (∃ nnn, i = .call nnn ∧ t.stack = s.pc :: s.stack ∧ stackFull s.cfg.stackDepth s.stack.length = false) ∨
    ∃ u top, i = .ret u ∧ s.stack = top :: t.stack
  disp : t.disp = s.disp ∨ (∃ u, i = .cls u) ∨ ∃ x y n, i = .drw x y n
  mem : t.mem = s.mem ∨ ∃ x, i = .dump x
  wf : Memory.wf s.cfg.glyphs s.mem = true → Memory.wf s.cfg.glyphs t.mem = true
  pc : t.pc = s.pc ∨ t.pc = s.pc + 2 ∨ (∃ nnn, t.pc = addr16 nnn) ∨ t.pc ∈ s.stack

/-- The three ways an instruction ends. -/
inductive Ends (i : Instr) (s : State) : State → Prop where
  | haltsInside (a : Nat) : Ends i s (s.haltInside (.memoryOutOfBounds a))
  | reports (e : Error) (h : e.isOutOfBounds = false) : Ends i s (s.report e)
  | ordinary (t : State) (h : Ordinary i s t) : Ends i s t

theorem Ordinary.of_pc_V {i : Instr} {s t : State} (h : t = { s with pc := t.pc, V := t.V })
    (hp : t.pc = s.pc ∨ t.pc = s.pc + 2) : Ordinary i s t := by
  rw [h]
  exact {
    faults := rfl, halted := rfl, cfg := rfl, draws := rfl, sound := rfl, key := rfl, delay := .inl rfl, index := .inl rfl
    stack := .inl rfl, disp := .inl rfl, mem := .inl rfl, wf := id
    pc := hp.imp id .inl }

theorem ordinary_skipIf (i : Instr) (s : State) (c : Bool) : Ordinary i s (s.skipIf c) :=
  .of_pc_V (by cases c <;> rfl) (by cases c <;> simp)

theorem ordinary_setReg (i : Instr) (s : State) (r : Reg) (v : Byte) : Ordinary i s (s.setReg r v) :=
  .of_pc_V rfl (.inl rfl)

theorem ordinary_writeResultFlag (i : Instr) (s : State) (x : Reg) (r : Byte) (f : Bool) :
    Ordinary i s (s.writeResultFlag x r f) :=
  .of_pc_V (by unfold State.writeResultFlag; split <;> rfl) (.inl (by simp))

/-- exec always answers a next state, in one of the three ways. -/
theorem exec_ends (i : Instr) (s : State) : ∃ t, exec i s = .next t ∧ Ends i s t := by
  have same : Ordinary i s s := .of_pc_V rfl (.inl rfl)
  cases i with
  | cls u => exact ⟨_, rfl, .ordinary _ { same with disp := .inr (.inl ⟨u, rfl⟩) }⟩
  | ret u =>
    cases hs : s.stack with
    | nil => exact ⟨_, execRet_empty hs, .reports _ rfl⟩
    | cons top rest =>
      exact ⟨_, execRet_cons hs, .ordinary _ { same with
        stack := .inr (.inr ⟨u, top, rfl, hs⟩), pc := by simp [hs] }⟩
  | jp nnn => exact ⟨_, rfl, .ordinary _ { same with pc := .inr (.inr (.inl ⟨nnn, rfl⟩)) }⟩
  | call nnn =>
    rcases execCall_cases nnn s with ⟨_, he⟩ | ⟨h, he⟩
    · exact ⟨_, he, .reports _ rfl⟩
    · exact ⟨_, he, .ordinary _ { same with
        stack := .inr (.inl ⟨nnn, rfl, rfl, h⟩), pc := .inr (.inr (.inl ⟨nnn, rfl⟩)) }⟩
  | seImm x nn => exact ⟨_, rfl, .ordinary _ (ordinary_skipIf _ s _)⟩
  | sneImm x nn => exact ⟨_, rfl, .ordinary _ (ordinary_skipIf _ s _)⟩
  | seReg x y u => exact ⟨_, rfl, .ordinary _ (ordinary_skipIf _ s _)⟩
  | ldImm x nn => exact ⟨_, rfl, .ordinary _ (ordinary_setReg _ s _ _)⟩
  | addImm x nn => exact ⟨_, rfl, .ordinary _ (ordinary_setReg _ s _ _)⟩
  | ldReg x y => exact ⟨_, rfl, .ordinary _ (ordinary_setReg _ s _ _)⟩
  | orReg x y => exact ⟨_, rfl, .ordinary _ (ordinary_setReg _ s _ _)⟩
  | andReg x y => exact ⟨_, rfl, .ordinary _ (ordinary_setReg _ s _ _)⟩
  | xorReg x y => exact ⟨_, rfl, .ordinary _ (ordinary_setReg _ s _ _)⟩
  | addReg x y => exact ⟨_, rfl, .ordinary _ (ordinary_writeResultFlag _ s _ _ _)⟩
  | subReg x y => exact ⟨_, rfl, .ordinary _ (ordinary_writeResultFlag _ s _ _ _)⟩
  | shrReg x y => exact ⟨_, rfl, .ordinary _ (ordinary_writeResultFlag _ s _ _ _)⟩
  | subnReg x y => exact ⟨_, rfl, .ordinary _ (ordinary_writeResultFlag _ s _ _ _)⟩
  | shlReg x y => exact ⟨_, rfl, .ordinary _ (ordinary_writeResultFlag _ s _ _ _)⟩
  | sneReg x y u => exact ⟨_, rfl, .ordinary _ (ordinary_skipIf _ s _)⟩
  | ldI nnn => exact ⟨_, rfl, .ordinary _ { same with index := .inr ⟨nnn, rfl, rfl⟩ }⟩
  | drw x y n =>
    rcases execDrw_cases x y n s with ⟨d, hit, he⟩ | ⟨a, he⟩
    · exact ⟨_, he, .ordinary _ { same with disp := .inr (.inr ⟨x, y, n, rfl⟩) }⟩
    · exact ⟨_, he, .haltsInside a⟩
  | skp x => exact ⟨_, rfl, .ordinary _ (ordinary_skipIf _ s _)⟩
  | sknp x => exact ⟨_, rfl, .ordinary _ (ordinary_skipIf _ s _)⟩
  | ldVxDT x => exact ⟨_, rfl, .ordinary _ (ordinary_setReg _ s _ _)⟩
  | ldDTVx x => exact ⟨_, rfl, .ordinary _ { same with delay := .inr ⟨x, rfl, rfl⟩ }⟩
  | dump x =>
    rcases execDump_cases x s with ⟨m, he, hw⟩ | ⟨a, he⟩
    · exact ⟨_, he, .ordinary _ { same with mem := .inr ⟨x, rfl⟩, wf := hw }⟩
    · exact ⟨_, he, .haltsInside a⟩
  | load x =>
    rcases execLoad_cases x s with ⟨V, he⟩ | ⟨a, he⟩
    · exact ⟨_, he, .ordinary _ (.of_pc_V rfl (.inl rfl))⟩
    · exact ⟨_, he, .haltsInside a⟩

/-- What a MemoryOutOfBounds inside an instruction leaves is still within the limits: memory in canonical form, and no more
stack entries than STACK_DEPTH. -/
theorem haltInside_fits (s : State) (e : Error) :
    Memory.wf s.cfg.glyphs (s.haltInside e).mem = true ∧ StackFits (s.haltInside e) := by
  constructor
  · rw [State.haltInside_mem]
    exact Memory.wf_ofContents _ _
  · unfold StackFits
    rw [State.haltInside_cfg, State.haltInside_stack]
    split
    · rename_i d hd
      exact length_clipStack_le hd _
    · trivial

/-- exec answers next t only in one of the three ways. -/
theorem ends_of_exec {i : Instr} {s t : State} (h : exec i s = .next t) : Ends i s t := by
  obtain ⟨u, hu, he⟩ := exec_ends i s
  rw [hu] at h
  cases h
  exact he

end Sys2Proof.Machine
end

