-- ==== Sys2Proof/Laws/Frame.lean ====
section
/-! SUPPORT. Frames: they compose, and each update of State has one. -/

namespace Sys2Proof.Machine

theorem Same.refl (s : State) (c : Component) : Same s s c := by
  cases c <;> simp [Same]

theorem Same.trans {s t u : State} {c : Component} (h : Same s t c) (h' : Same t u c) : Same s u c := by
  cases c with
  | V => exact fun r => (h' r).trans (h r)
  | mem => exact fun a => (h' a).trans (h a)
  | disp => exact fun row col => (h' row col).trans (h row col)
  | I => exact Eq.trans h' h
  | pc => exact Eq.trans h' h
  | stack => exact Eq.trans h' h
  | DT => exact Eq.trans h' h
  | ST => exact Eq.trans h' h
  | key => exact Eq.trans h' h
  | faults => exact Eq.trans h' h
  | halted => exact Eq.trans h' h
  | cfg => exact Eq.trans h' h
  | draws => exact Eq.trans h' h

theorem Frame.refl (s : State) (changed : List Component) : Frame changed s s := fun c _ => Same.refl s c

theorem Frame.trans {changed : List Component} {s t u : State} (h : Frame changed s t) (h' : Frame changed t u) :
    Frame changed s u :=
  fun c hc => (h c hc).trans (h' c hc)

theorem Frame.mono {small big : List Component} {s t : State} (hsub : ∀ c ∈ small, c ∈ big) (h : Frame small s t) :
    Frame big s t :=
  fun c hc => h c (fun hm => hc (hsub c hm))

/-- A state that differs only in V. -/
theorem Frame.of_V {s t : State} (h : t = { s with V := t.V }) : Frame [.V] s t := by
  intro c hc
  rw [h]
  cases c <;> first | exact absurd List.mem_cons_self hc | exact rfl | exact fun _ => rfl | exact fun _ _ => rfl

/-- A state that differs only in pc. -/
theorem Frame.of_pc {s t : State} (h : t = { s with pc := t.pc }) : Frame [.pc] s t := by
  intro c hc
  rw [h]
  cases c <;> first | exact absurd List.mem_cons_self hc | exact rfl | exact fun _ => rfl | exact fun _ _ => rfl

/-- A state that differs only in memory. -/
theorem Frame.of_mem {s t : State} (h : t = { s with mem := t.mem }) : Frame [.mem] s t := by
  intro c hc
  rw [h]
  cases c <;> first | exact absurd List.mem_cons_self hc | exact rfl | exact fun _ => rfl | exact fun _ _ => rfl

/-- A state that differs only in `faults`. -/
theorem Frame.of_faults {s t : State} (h : t = { s with faults := t.faults }) : Frame [.faults] s t := by
  intro c hc
  rw [h]
  cases c <;> first | exact absurd List.mem_cons_self hc | exact rfl | exact fun _ => rfl | exact fun _ _ => rfl

theorem frame_setReg (s : State) (r : Reg) (v : Byte) : Frame [.V] s (s.setReg r v) := .of_V rfl

theorem frame_writeResultFlag (s : State) (x : Reg) (r : Byte) (f : Bool) : Frame [.V] s (s.writeResultFlag x r f) :=
  .of_V (by unfold State.writeResultFlag; split <;> rfl)

theorem frame_setPc (s : State) (v : Word) : Frame [.pc] s (s.setPc v) := .of_pc rfl

theorem frame_advancePc (s : State) : Frame [.pc] s s.advancePc := .of_pc rfl

theorem frame_skipIf (s : State) (c : Bool) : Frame [.pc] s (s.skipIf c) := .of_pc (by cases c <;> rfl)

theorem frame_report (s : State) (e : Error) : Frame [.faults] s (s.report e) := .of_faults rfl

theorem regFrame_setReg (s : State) (r : Reg) (v : Byte) : RegFrame [r] s (s.setReg r v) :=
  fun _ hq => State.reg_setReg_ne s v (fun e => hq (e ▸ List.mem_cons_self))

end Sys2Proof.Machine
end

