-- ==== Sys2Proof/Laws/PerInstr.lean ====
section
/-! SUPPORT. One lemma per instruction: the dispatch of R111 reads an instruction from its own word. -/

namespace Sys2Proof.Laws.DispatchInvertsEncode

/-- The dispatch on the fields of i's word names i, with every operand. -/
def Statement (i : Instr) : Prop := classifyFields (splitFields (encode i)) = some i

theorem cls (u : Fin 16) : Statement (.cls u) :=
  (congrArg classifyFields (splitFields_imm _ _ _)).trans rfl

theorem ret (u : Fin 16) : Statement (.ret u) :=
  (congrArg classifyFields (splitFields_imm _ _ _)).trans rfl

theorem jp (nnn : Addr12) : Statement (.jp nnn) :=
  (congrArg classifyFields (splitFields_addr _ _)).trans rfl

theorem call (nnn : Addr12) : Statement (.call nnn) :=
  (congrArg classifyFields (splitFields_addr _ _)).trans rfl

theorem seImm (x : Reg) (nn : Byte) : Statement (.seImm x nn) :=
  (congrArg classifyFields (splitFields_imm _ _ _)).trans rfl

theorem sneImm (x : Reg) (nn : Byte) : Statement (.sneImm x nn) :=
  (congrArg classifyFields (splitFields_imm _ _ _)).trans rfl

theorem seReg (x y : Reg) (u : Fin 16) : Statement (.seReg x y u) :=
  (congrArg classifyFields (splitFields_nibbles _ _ _ _)).trans rfl

theorem ldImm (x : Reg) (nn : Byte) : Statement (.ldImm x nn) :=
  (congrArg classifyFields (splitFields_imm _ _ _)).trans rfl

theorem addImm (x : Reg) (nn : Byte) : Statement (.addImm x nn) :=
  (congrArg classifyFields (splitFields_imm _ _ _)).trans rfl

theorem ldReg (x y : Reg) : Statement (.ldReg x y) :=
  (congrArg classifyFields (splitFields_nibbles _ _ _ _)).trans rfl

theorem orReg (x y : Reg) : Statement (.orReg x y) :=
  (congrArg classifyFields (splitFields_nibbles _ _ _ _)).trans rfl

theorem andReg (x y : Reg) : Statement (.andReg x y) :=
  (congrArg classifyFields (splitFields_nibbles _ _ _ _)).trans rfl

theorem xorReg (x y : Reg) : Statement (.xorReg x y) :=
  (congrArg classifyFields (splitFields_nibbles _ _ _ _)).trans rfl

theorem addReg (x y : Reg) : Statement (.addReg x y) :=
  (congrArg classifyFields (splitFields_nibbles _ _ _ _)).trans rfl

theorem subReg (x y : Reg) : Statement (.subReg x y) :=
  (congrArg classifyFields (splitFields_nibbles _ _ _ _)).trans rfl

theorem shrReg (x y : Reg) : Statement (.shrReg x y) :=
  (congrArg classifyFields (splitFields_nibbles _ _ _ _)).trans rfl

theorem subnReg (x y : Reg) : Statement (.subnReg x y) :=
  (congrArg classifyFields (splitFields_nibbles _ _ _ _)).trans rfl

theorem shlReg (x y : Reg) : Statement (.shlReg x y) :=
  (congrArg classifyFields (splitFields_nibbles _ _ _ _)).trans rfl

theorem sneReg (x y : Reg) (u : Fin 16) : Statement (.sneReg x y u) :=
  (congrArg classifyFields (splitFields_nibbles _ _ _ _)).trans rfl

theorem ldI (nnn : Addr12) : Statement (.ldI nnn) :=
  (congrArg classifyFields (splitFields_addr _ _)).trans rfl

theorem drw (x y : Reg) (n : Fin 16) : Statement (.drw x y n) :=
  (congrArg classifyFields (splitFields_nibbles _ _ _ _)).trans rfl

theorem skp (x : Reg) : Statement (.skp x) :=
  (congrArg classifyFields (splitFields_imm _ _ _)).trans rfl

theorem sknp (x : Reg) : Statement (.sknp x) :=
  (congrArg classifyFields (splitFields_imm _ _ _)).trans rfl

theorem ldVxDT (x : Reg) : Statement (.ldVxDT x) :=
  (congrArg classifyFields (splitFields_imm _ _ _)).trans rfl

theorem ldDTVx (x : Reg) : Statement (.ldDTVx x) :=
  (congrArg classifyFields (splitFields_imm _ _ _)).trans rfl

theorem dump (x : Reg) : Statement (.dump x) :=
  (congrArg classifyFields (splitFields_imm _ _ _)).trans rfl

theorem load (x : Reg) : Statement (.load x) :=
  (congrArg classifyFields (splitFields_imm _ _ _)).trans rfl

end Sys2Proof.Laws.DispatchInvertsEncode
end

