-- ==== Sys2Proof/Tests/Slice0.lean ====
section
/-! SUPPORT. Tests: which terms WellFormed refuses, what words decode to, single steps, and for each obligation with hypotheses
a witness that meets them. Expected results are the spec's own (spec/95_test_vectors.md, whose ids stand in the comments)
or are read off the rule named. -/

open Sys2Proof Sys2Proof.Machine

namespace Sys2Proof.Tests

/-! ## Helpers -/

/-- The default configuration with one parameter changed. -/
def lenient : Config := { Config.specDefaults with lenientDecode := true }
def withKeys : Config := { Config.specDefaults with keySkips := true }
def shiftX : Config := { Config.specDefaults with shiftSource := .X }
def resultLast : Config := { Config.specDefaults with flagOrder := .resultLast }
def unbounded : Config := { Config.specDefaults with stackDepth := .unbounded }

/-- The state after `initialize()` at a configuration, with bytes at 0x200. -/
def codeWith (cfg : Config) (bytes : List Byte) : State := (State.resetWith cfg).pokeBytes 0x200 bytes

/-- The same at the default configuration. -/
def code (bytes : List Byte) : State := codeWith Config.specDefaults bytes

/-- Registers set, as a vector's start state sets them. -/
def State.regs (s : State) : List (Reg × Byte) → State
  | [] => s
  | (r, v) :: rest => State.regs (s.setReg r v) rest

/-- What one field of the state after a cycle is. -/
def after {α : Type} (s : State) (f : State → α) : Option α :=
  match step s with
  | .next t => some (f t)
  | .fault _ => none
  | .refused _ => none

/-- What one field of the state after a host call and its reply are. -/
def called {α : Type} (c : HostCall) (s : State) (f : State → α) : Option (α × Reply) :=
  match hostCall c s with
  | .next (t, r) => some (f t, r)
  | .fault _ => none
  | .refused _ => none

/-- The same after a run, with the replies. -/
def ran {α : Type} (calls : List HostCall) (s : State) (f : State → α) : Option (α × List Reply) :=
  match hostRun calls s with
  | .next (t, rs) => some (f t, rs)
  | .fault _ => none
  | .refused _ => none

theorem step_of_after {α : Type} {s : State} {f : State → α} {a : α} (h : after s f = some a) :
    ∃ t, step s = .next t ∧ f t = a := by
  unfold after at h
  split at h <;> cases h
  exact ⟨_, ‹_›, rfl⟩

theorem run_of_ran {α : Type} {calls : List HostCall} {s : State} {f : State → α} {a : α} {rs : List Reply}
    (h : ran calls s f = some (a, rs)) : ∃ t, hostRun calls s = .next (t, rs) ∧ f t = a := by
  unfold ran at h
  split at h <;> cases h
  exact ⟨_, ‹_›, rfl⟩

/-! ## WellFormed refuses each ill-formed form (R110, R112) -/

theorem test_wf_cls_unused : Instr.wf Config.specDefaults (.cls 1) = false := by decide
theorem test_wf_ret_unused : Instr.wf Config.specDefaults (.ret 15) = false := by decide
theorem test_wf_seReg_unused : Instr.wf Config.specDefaults (.seReg 1 2 1) = false := by decide
theorem test_wf_sneReg_unused : Instr.wf Config.specDefaults (.sneReg 10 11 1) = false := by decide
theorem test_wf_skp_absent : Instr.wf Config.specDefaults (.skp 1) = false := by decide
theorem test_wf_sknp_absent : Instr.wf Config.specDefaults (.sknp 1) = false := by decide
theorem test_wf_lenient :
    [Instr.cls 1, .ret 15, .seReg 1 2 1, .sneReg 10 11 1].map (Instr.wf lenient) = [true, true, true, true] := by decide
theorem test_wf_keys : [Instr.skp 1, .sknp 1].map (Instr.wf withKeys) = [true, true] := by decide

/-! ## Decoding: every row of R112, its word written out from the pattern column -/

theorem test_decode_flow :
    [0b0000000011100000#16, 0b0000000011101110#16, 0b0001001000110100#16, 0b0010101010111100#16].map
      (classify Config.specDefaults) =
    [.ok (.cls 0), .ok (.ret 0), .ok (.jp 0x234), .ok (.call 0xABC)] := by decide

theorem test_decode_immediates :
    [0b0011001011111010#16, 0b0100111100000001#16, 0b0110001100010010#16, 0b0111000000000011#16].map
      (classify Config.specDefaults) =
    [.ok (.seImm 2 0xFA), .ok (.sneImm 15 0x01), .ok (.ldImm 3 0x12), .ok (.addImm 0 0x03)] := by decide

theorem test_decode_register_skips :
    [0b0101000100100000#16, 0b1001101010110000#16].map (classify Config.specDefaults) =
    [.ok (.seReg 1 2 0), .ok (.sneReg 10 11 0)] := by decide

theorem test_decode_family8 :
    [0b1000101010110000#16, 0b1000101010110001#16, 0b1000101010110010#16, 0b1000101010110011#16, 0b1000101010110100#16,
      0b1000101010110101#16, 0b1000101010110110#16, 0b1000101010110111#16, 0b1000101010111110#16].map
      (classify Config.specDefaults) =
    [.ok (.ldReg 10 11), .ok (.orReg 10 11), .ok (.andReg 10 11), .ok (.xorReg 10 11), .ok (.addReg 10 11),
      .ok (.subReg 10 11), .ok (.shrReg 10 11), .ok (.subnReg 10 11), .ok (.shlReg 10 11)] := by decide

theorem test_decode_index_and_draw :
    [0b1010000100100011#16, 0b1101000100101111#16].map (classify Config.specDefaults) =
    [.ok (.ldI 0x123), .ok (.drw 1 2 15)] := by decide

theorem test_decode_keys :
    [0b1110000110011110#16, 0b1110000110100001#16].map (classify withKeys) = [.ok (.skp 1), .ok (.sknp 1)] := by decide

theorem test_decode_familyF :
    [0b1111010100000111#16, 0b1111001000010101#16, 0b1111001001010101#16, 0b1111000101100101#16].map
      (classify Config.specDefaults) =
    [.ok (.ldVxDT 5), .ok (.ldDTVx 2), .ok (.dump 2), .ok (.load 1)] := by decide

/-- CL-2, CL-4, CL-5, CL-6, CL-8, CL-9, CL-11 to CL-19 and CL-22: words that are Unsupported at the defaults. -/
theorem test_decode_unsupported :
    [0x01E0#16, 0x0000#16, 0x0123#16, 0x5121#16, 0x9AB1#16, 0x8008#16, 0x800F#16, 0xB123#16, 0xC0FF#16, 0xE19E#16, 0xE1A1#16,
      0xE1A2#16, 0xF00A#16, 0xF029#16, 0xF11E#16, 0xFFFF#16].all
      (fun w => classify Config.specDefaults w == .error (.unsupported w)) = true := by decide

/-- CL-2, CL-6, CL-8 under LENIENT_DECODE; CL-5 and CL-16 stay Unsupported there and under KEY_SKIPS. -/
theorem test_decode_lenient :
    [0x01E0#16, 0x5121#16, 0x9AB1#16, 0x0123#16].map (classify lenient) =
      [.ok (.cls 1), .ok (.seReg 1 2 1), .ok (.sneReg 10 11 1), .error (.unsupported 0x0123)] ∧
    classify withKeys 0xE1A2 = .error (.unsupported 0xE1A2) := by decide

/-- DEC-3 and DEC-6. -/
theorem test_split :
    splitFields 0xD12F = ⟨0xD, 0x1, 0x2, 0xF, 0x2F, 0x12F⟩ ∧ splitFields 0x8AB6 = ⟨0x8, 0xA, 0xB, 0x6, 0xB6, 0xAB6⟩ := by decide

theorem test_decode_truncated : decode Config.specDefaults [0x63] = .error .truncated := by decide

/-- The assembler forms of lines of P1, P3 and P4. -/
theorem test_assembly :
    (Instr.addImm 1 0x01).assembly = "ADD V1, 0x01" ∧ (Instr.ldI 0x050).assembly = "LD I, 0x050" ∧
    (Instr.drw 0 1 5).assembly = "DRW V0, V1, 5" ∧ (Instr.dump 2).assembly = "LD [I], V2" := by decide

/-- The host's numbering: the word 0x6312 of 16 bits; row 22 exists where its word asks for it. -/
theorem test_table_word :
    decodeTableWord 16 0x6312 = some (.ldImm 3 0x12) ∧ decodeTableWord 16 0xE19E = some (.skp 1) ∧
    decodeTableWord 16 0x01E0 = none := by decide
theorem test_fetch_word :
    after (State.reset.withFetchWord 16 0x6312) (fun t => (t.reg 3, t.pc)) = some (0x12, 0x202) ∧
    after (State.reset.withFetchWord 16 0xE3A1) (fun t => t.pc) = some 0x204 := by decide

/-! ## Single steps -/

/-- FL-1, one of its cells. -/
theorem test_cls :
    after (code [0x00, 0xE0] |> fun s => { s with disp := Display.toggle s.disp 31 63 })
      (fun t => (t.pixel 31 63, t.pc)) = some (false, 0x202) := by decide
/-- FL-3. -/
theorem test_ret :
    after { code [0x00, 0xEE] with stack := [0x206, 0x300] } (fun t => (t.pc, t.stack)) = some (0x206, [0x300]) := by decide
/-- FL-4. -/
theorem test_ret_underflow :
    after (code [0x00, 0xEE]) (fun t => (t.pc, t.faults, t.halted)) =
      some (0x202, [.stackUnderflow 0x00EE], false) := by decide
/-- FL-6: an odd target. -/
theorem test_jp : after (code [0x12, 0x01]) (fun t => t.pc) = some 0x201 := by decide
/-- FL-9, from 0x200. -/
theorem test_call : after (code [0x22, 0x10]) (fun t => (t.pc, t.stack)) = some (0x210, [0x202]) := by decide
/-- FL-10 and FL-11. -/
theorem test_call_full :
    after { code [0x2A, 0xBC] with stack := List.replicate 16 0x300 } (fun t => (t.pc, t.stack.length, t.faults)) =
      some (0x202, 16, [.stackOverflow 0x2ABC]) ∧
    after { codeWith unbounded [0x2A, 0xBC] with stack := List.replicate 16 0x300 }
      (fun t => (t.pc, t.stack.length, t.stack.head?)) = some (0xABC, 17, some 0x202) := by decide

/-- SK-1 and SK-2. -/
theorem test_seImm :
    after (State.regs (code [0x32, 0xFA]) [(2, 0xFA)]) (fun t => t.pc) = some 0x204 ∧
    after (State.regs (code [0x32, 0xFA]) [(2, 0xF9)]) (fun t => t.pc) = some 0x202 := by decide
/-- SK-5 and SK-6. -/
theorem test_sneImm :
    after (State.regs (code [0x42, 0xFA]) [(2, 0xFA)]) (fun t => t.pc) = some 0x202 ∧
    after (code [0x42, 0xFA]) (fun t => t.pc) = some 0x204 := by decide
/-- SK-7 and SK-8. -/
theorem test_seReg :
    after (State.regs (code [0x51, 0x20]) [(1, 7), (2, 7)]) (fun t => t.pc) = some 0x204 ∧
    after (State.regs (code [0x51, 0x20]) [(1, 7), (2, 8)]) (fun t => t.pc) = some 0x202 := by decide
/-- SK-10 and SK-11. -/
theorem test_sneReg :
    after (State.regs (code [0x91, 0x20]) [(1, 7), (2, 8)]) (fun t => t.pc) = some 0x204 ∧
    after (State.regs (code [0x91, 0x10]) [(1, 7)]) (fun t => t.pc) = some 0x202 := by decide
/-- SK-16, SK-17 and SK-18: a V3 of 0x15 is no key, although its low nibble is 5. -/
theorem test_skp :
    after { State.regs (codeWith withKeys [0xE3, 0x9E]) [(3, 5)] with key := some 5 } (fun t => t.pc) = some 0x204 ∧
    after (State.regs (codeWith withKeys [0xE3, 0x9E]) [(3, 5)]) (fun t => t.pc) = some 0x202 ∧
    after { State.regs (codeWith withKeys [0xE3, 0x9E]) [(3, 0x15)] with key := some 5 } (fun t => t.pc) = some 0x202 := by
  decide
/-- SK-19 and SK-20. -/
theorem test_sknp :
    after (State.regs (codeWith withKeys [0xE3, 0xA1]) [(3, 5)]) (fun t => t.pc) = some 0x204 ∧
    after { State.regs (codeWith withKeys [0xE3, 0xA1]) [(3, 5)] with key := some 5 } (fun t => t.pc) = some 0x202 := by decide

/-- ALU-1 and ALU-2. -/
theorem test_ldImm :
    after (code [0x63, 0x12]) (fun t => (t.reg 3, t.reg 2, t.pc)) = some (0x12, 0, 0x202) ∧
    after (code [0x6F, 0xAA]) (fun t => t.reg VF) = some 0xAA := by decide
/-- ALU-3 and ALU-5: no carry is written. -/
theorem test_addImm :
    after (State.regs (code [0x70, 0x03]) [(0, 0xFE), (15, 0x55)]) (fun t => (t.reg 0, t.reg VF)) = some (0x01, 0x55) ∧
    after (State.regs (code [0x7F, 0x01]) [(15, 0xFF)]) (fun t => t.reg VF) = some 0x00 := by decide
/-- ALU-6. -/
theorem test_ldReg : after (State.regs (code [0x80, 0x10]) [(1, 0x42)]) (fun t => (t.reg 0, t.reg 1)) = some (0x42, 0x42) := by
  decide
/-- ALU-8. -/
theorem test_orReg :
    after (State.regs (code [0x80, 0x11]) [(0, 0xF0), (1, 0x0F), (15, 0x77)]) (fun t => (t.reg 0, t.reg VF)) =
      some (0xFF, 0x77) := by decide
/-- ALU-9. -/
theorem test_andReg : after (State.regs (code [0x80, 0x12]) [(0, 0xF0), (1, 0x3C)]) (fun t => t.reg 0) = some 0x30 := by decide
/-- ALU-10. -/
theorem test_xorReg : after (State.regs (code [0x80, 0x13]) [(0, 0xF0), (1, 0x3C)]) (fun t => t.reg 0) = some 0xCC := by decide
/-- ALU-12, ALU-13 and ALU-18: y = 15 reads the old VF. -/
theorem test_addReg :
    after (State.regs (code [0x80, 0x14]) [(0, 0xFF), (1, 0x01)]) (fun t => (t.reg 0, t.reg VF)) = some (0x00, 1) ∧
    after (State.regs (code [0x80, 0x14]) [(0, 0x7F), (1, 0x80)]) (fun t => (t.reg 0, t.reg VF)) = some (0xFF, 0) ∧
    after (State.regs (code [0x80, 0xF4]) [(0, 0x01), (15, 0xFF)]) (fun t => (t.reg 0, t.reg VF)) = some (0x00, 1) := by decide
/-- ALU-17, under both orders. -/
theorem test_addReg_flag_order :
    after (State.regs (code [0x8F, 0x14]) [(15, 0x10), (1, 0x20)]) (fun t => t.reg VF) = some 0 ∧
    after (State.regs (codeWith resultLast [0x8F, 0x14]) [(15, 0x10), (1, 0x20)]) (fun t => t.reg VF) = some 0x30 := by decide
/-- ALU-19 and ALU-21. -/
theorem test_subReg :
    after (State.regs (code [0x80, 0x15]) [(0, 0x05), (1, 0x07)]) (fun t => (t.reg 0, t.reg VF)) = some (0xFE, 0) ∧
    after (State.regs (code [0x80, 0x15]) [(0, 0x05), (1, 0x05)]) (fun t => (t.reg 0, t.reg VF)) = some (0x00, 1) := by decide
/-- ALU-26 and ALU-29. -/
theorem test_shrReg :
    after (State.regs (code [0x80, 0x16]) [(0, 0xAA), (1, 0x03)]) (fun t => (t.reg 0, t.reg VF)) = some (0x01, 1) ∧
    after (State.regs (codeWith shiftX [0x80, 0x16]) [(0, 0x04), (1, 0xFF)]) (fun t => (t.reg 0, t.reg VF)) = some (0x02, 0) := by
  decide
/-- ALU-32 and ALU-33. -/
theorem test_subnReg :
    after (State.regs (code [0x80, 0x17]) [(0, 0x03), (1, 0x05)]) (fun t => (t.reg 0, t.reg VF)) = some (0x02, 1) ∧
    after (State.regs (code [0x80, 0x17]) [(0, 0x05), (1, 0x03)]) (fun t => (t.reg 0, t.reg VF)) = some (0xFE, 0) := by decide
/-- ALU-37 and ALU-41. -/
theorem test_shlReg :
    after (State.regs (code [0x80, 0x1E]) [(1, 0x81)]) (fun t => (t.reg 0, t.reg VF)) = some (0x02, 1) ∧
    after (State.regs (codeWith shiftX [0x80, 0x1E]) [(0, 0x80), (1, 0x01)]) (fun t => (t.reg 0, t.reg VF)) = some (0x00, 1) := by
  decide

/-- IDX-2. -/
theorem test_ldI : after { code [0xAF, 0xFF] with I := 0x0ABC } (fun t => t.I) = some 0x0FFF := by decide
/-- DRW-5: the second row wraps to the top. -/
theorem test_drw_wraps :
    after { State.regs (code [0xD0, 0x12] |> fun s => s.pokeBytes 0x300 [0xC0, 0xC0]) [(1, 31)] with I := 0x300 }
      (fun t => [t.pixel 31 0, t.pixel 31 1, t.pixel 0 0, t.pixel 0 1, t.pixel 1 0, t.pixel 31 2]) =
      some [true, true, true, true, false, false] := by decide
/-- DRW-12 and DRW-10: columns are clipped, and a lit cell turned off is a collision. -/
theorem test_drw_clips_and_collides :
    after { State.regs (code [0xD0, 0x11] |> fun s => s.pokeBytes 0x300 [0x81]) [(0, 60)] with I := 0x300 }
      (fun t => (t.pixel 0 60, t.pixel 0 3, t.pixel 1 3, t.reg VF)) = some (true, false, false, 0) ∧
    after { (code [0xD0, 0x11] |> fun s => s.pokeBytes 0x300 [0xC0]) with
        I := 0x300, disp := Display.toggle Display.blank 0 0 }
      (fun t => (t.pixel 0 0, t.pixel 0 1, t.reg VF)) = some (false, true, 1) := by decide

/-- TT-1. -/
theorem test_ldVxDT : after { code [0xF5, 0x07] with DT := 0x3C } (fun t => (t.reg 5, t.DT)) = some (0x3C, 0x3C) := by decide
/-- TT-3. -/
theorem test_ldDTVx :
    after { State.regs (code [0xF2, 0x15]) [(2, 0x10)] with ST := 0x07 } (fun t => (t.DT, t.ST)) = some (0x10, 0x07) := by decide
/-- TT-5. -/
theorem test_dump :
    after { State.regs (code [0xF2, 0x55]) [(0, 0x11), (1, 0x22), (2, 0x33), (3, 0x44)] with I := 0x300 }
      (fun t => ([0x300, 0x301, 0x302, 0x303].map t.byteAt, t.I)) = some ([0x11, 0x22, 0x33, 0x00], 0x300) := by decide
/-- TT-8: what it halts with. -/
theorem test_dump_out_of_bounds :
    after { code [0xFF, 0x55] with I := 0xFF1 } (fun t => (t.faults, t.halted)) =
      some ([.memoryOutOfBounds 0x1000], true) := by decide
/-- TT-9 and TT-10. -/
theorem test_load :
    after { code [0xF0, 0x65] with I := 0x050 } (fun t => t.reg 0) = some 0xF0 ∧
    after { State.regs (code [0xF1, 0x65] |> fun s => s.pokeBytes 0x300 [0x11, 0x22]) [(2, 0x99)] with I := 0x300 }
      (fun t => (t.reg 0, t.reg 1, t.reg 2, t.I)) = some (0x11, 0x22, 0x99, 0x300) := by decide

/-! ## Errors, reset and the host's calls -/

/-- UNS-1 and RST-5: from a bare reset the first fetch reads 0x0000. -/
theorem test_bare_reset :
    after State.reset (fun t => (t.pc, t.faults, t.halted)) = some (0x202, [.unsupportedOpcode 0x0000], false) := by decide
/-- FL-14, and a pc beyond memory. -/
theorem test_fetch_fault :
    after { State.reset with pc := 0xFFF } (fun t => (t.pc, t.faults, t.halted)) =
      some (0xFFF, [.memoryOutOfBounds 0x1000], true) ∧
    after { State.reset with pc := 0x1002 } (fun t => (t.pc, t.faults)) = some (0x1002, [.memoryOutOfBounds 0x1002]) := by decide
/-- RST-2 and RST-3. -/
theorem test_reset_memory :
    [0x04F, 0x050, 0x054, 0x09B, 0x09F, 0x0A0, 0xFFF].map State.reset.byteAt =
      [0x00, 0xF0, 0xF0, 0xF0, 0x80, 0x00, 0x00] := by decide
/-- HOST-5 and HOST-6. -/
theorem test_load_image :
    called (.loadImage [0x00] 4096) State.reset (fun t => t.faults) = some ([], .error (.imageTooLarge 4096 1)) ∧
    called (.loadImage [0xAA] 0x050) State.reset (fun t => t.byteAt 0x050) = some (0xAA, .ok) := by decide
/-- HOST-8 and HOST-10. -/
theorem test_decrement_timers :
    called (.decrementTimers 300) { State.reset with DT := 0x10, ST := 0x05 } (fun t => (t.DT, t.ST)) = some ((0, 0), .ok) ∧
    called (.decrementTimers 6) { State.reset with DT := 0x10, ST := 0x05 } (fun t => (t.DT, t.ST)) =
      some ((0x0A, 0x00), .ok) := by decide
/-- HOST-12, HOST-13 and HOST-14. -/
theorem test_get_and_key :
    called (.get 32 0) State.reset (fun t => t.faults) = some ([], .error (.displayOutOfBounds 32 0)) ∧
    called (.get 0 64) State.reset (fun t => t.faults) = some ([], .error (.displayOutOfBounds 0 64)) ∧
    called (.setInputKey (some 7)) State.reset (fun t => t.key) = some (some 7, .ok) := by decide
/-- HOST-15 and HOST-16. -/
theorem test_halted :
    called .cycle { State.reset with halted := true } (fun t => t.pc) = none ∧
    called .init { State.reset with halted := true, faults := [.memoryOutOfBounds 4096], pc := 0x300 }
      (fun t => (t.pc, t.halted, t.faults)) = some ((0x200, false, []), .ok) := by decide
/-- P7, its first cycle: the reply is the error reported. -/
theorem test_cycle_reply :
    called .cycle (code [0x00, 0xEE]) (fun t => t.pc) = some (0x202, .error (.stackUnderflow 0x00EE)) ∧
    called .cycle (code [0x60, 0x01]) (fun t => t.reg 0) = some (0x01, .ok) := by decide
/-- R260's codes. -/
theorem test_error_codes :
    [Error.imageTooLarge 0 0, .stackUnderflow 0, .unsupportedOpcode 0, .stackOverflow 0, .memoryOutOfBounds 0,
      .displayOutOfBounds 0 0].map Error.code = [1, 2, 3, 4, 5, 6] := by decide

/-! ## Witnesses: the hypotheses of each obligation, met -/

/-- Both clauses: a well-formed instruction, and ill-formed ones. -/
theorem test_witness_DecodeInvertsEncode :
    Instr.wf Config.specDefaults (.drw 15 0 15) = true ∧ Instr.wf lenient (.seReg 15 15 15) = true ∧
    Instr.wf Config.specDefaults (.seReg 15 15 15) = false ∧ Instr.wf Config.specDefaults (.skp 0) = false := by decide
theorem test_witness_EncodeInvertsDecode :
    decode withKeys [0xE1, 0x9E, 0xAA] = .ok (.skp 1, [0xAA]) ∧ decode lenient [0x0F, 0xEE] = .ok (.ret 15, []) := by decide
/-- Both clauses. -/
theorem test_witness_ClassifyFollowsTheOpcodeTable :
    classify lenient 0x51BF = .ok (.seReg 1 11 15) ∧ classify withKeys 0xE1A2 = .error (.unsupported 0xE1A2) := by decide
/-- A word of each of R113's clauses; with another configuration the first, second and sixth are instructions. -/
theorem test_witness_UnsupportedWordsAreTheListedOnes :
    [0x01E0#16, 0x9AB1#16, 0x8008#16, 0xB123#16, 0xC0FF#16, 0xE19E#16, 0xF00A#16].all
      (fun w => classify Config.specDefaults w == .error (.unsupported w)) = true ∧
    classify lenient 0x01E0 = .ok (.cls 1) ∧ classify lenient 0x9AB1 = .ok (.sneReg 10 11 1) ∧
    classify withKeys 0xE19E = .ok (.skp 1) := by decide
/-- At the last address a fetch can start at. -/
theorem test_witness_StepRunsTheDecodedInstruction :
    let s := { State.reset.pokeBytes 0xFFE [0x63, 0x12] with pc := 0xFFE }
    s.halted = false ∧ s.pc.toNat + 1 < 4096 ∧
    decode s.cfg [s.byteAt s.pc.toNat, s.byteAt (s.pc.toNat + 1)] = .ok (.ldImm 3 0x12, []) := by decide
/-- The three clauses at the addresses where they meet. -/
theorem test_witness_FetchIsBigEndianAtAnyAddress :
    (State.reset.pokeBytes 0xFFE [0x12, 0x34]).fetch16 4094 = .ok 0x1234 ∧
    State.reset.fetch16 4095 = .error (.memoryOutOfBounds 4096) ∧
    State.reset.fetch16 4096 = .error (.memoryOutOfBounds 4096) := by decide
/-- The last byte of memory and the first address beyond it. -/
theorem test_witness_ByteReadsAsLastWritten : (0xFFF : Nat) < 4096 ∧ (0xFFE : Nat) ≠ 0xFFF ∧ (4096 : Nat) ≤ 0x1000 := by decide
/-- pc = 0x0FFF, and the first pc beyond memory. -/
theorem test_witness_FetchOutOfBoundsHalts :
    let s := { State.reset with pc := 0x0FFF }
    let u := { State.reset with pc := 0x1000 }
    s.halted = false ∧ 0x0FFF ≤ s.pc.toNat ∧ u.halted = false ∧ 0x0FFF ≤ u.pc.toNat := by decide
theorem test_witness_UnsupportedWordIsReported :
    State.reset.halted = false ∧ State.reset.fetch16 State.reset.pc.toNat = .ok 0x0000 ∧
    classify State.reset.cfg 0x0000 = .error (.unsupported 0x0000) := by decide
theorem test_witness_HaltedMachineHasNoStep :
    { State.reset with halted := true }.halted = true ∧ HostCall.get 0 0 ≠ .init := by decide
/-- An instruction, an FX15 and an error; each next state is not halted. -/
theorem test_witness_EachCycleExecutesOneInstructionOrReportsOneError :
    (code [0x63, 0x12]).halted = false ∧
    after (code [0x63, 0x12]) (fun t => (t.halted, t.faults)) = some (false, []) ∧
    after (State.regs (code [0xF2, 0x15]) [(2, 9)]) (fun t => (t.halted, t.DT)) = some (false, 9) ∧
    after (code [0x00, 0xEE]) (fun t => (t.halted, t.faults)) = some (false, [.stackUnderflow 0x00EE]) := by decide
theorem test_witness_CycleReturnsOkOrItsOneError :
    (code [0x63, 0x12]).halted = false ∧ (code [0x00, 0xEE]).halted = false := by decide
theorem test_witness_ReturnPopsTheTopEntry : { State.reset with stack := [0x206] }.stack = 0x206 :: [] := by decide
theorem test_witness_ReturnOnEmptyStackReportsUnderflow : State.reset.stack = [] := by decide
/-- One entry below the capacity, and any number under UNBOUNDED. -/
theorem test_witness_CallPushesTheAdvancedPc :
    (let s := { State.reset with stack := List.replicate 15 0x300 }
     ∀ d, s.cfg.stackDepth = .bounded d → s.stack.length < d) ∧
    (let s := { State.resetWith unbounded with stack := List.replicate 16 0x300 }
     ∀ d, s.cfg.stackDepth = .bounded d → s.stack.length < d) := by
  constructor
  · intro s d h
    cases h
    decide
  · intro s d h
    cases h
theorem test_witness_CallOnFullStackReportsOverflow :
    (let s := { State.reset with stack := List.replicate 16 0x300 }
     s.cfg.stackDepth = .bounded s.stack.length) ∧
    (State.resetWith { Config.specDefaults with stackDepth := .bounded 0 }).cfg.stackDepth =
      .bounded (State.resetWith { Config.specDefaults with stackDepth := .bounded 0 }).stack.length := by decide
theorem test_witness_CallThenReturnResumesAfterTheCall :
    (let s := (code [0x22, 0x10]).pokeBytes 0x210 [0x00, 0xEE]
     s.halted = false ∧ s.fetch16 s.pc.toNat = .ok (encode (.call 0x210)) ∧
     s.fetch16 (0x210 : Addr12).toNat = .ok (encode (.ret 0))) ∧
    ∀ d, ((code [0x22, 0x10]).pokeBytes 0x210 [0x00, 0xEE]).cfg.stackDepth = .bounded d →
      ((code [0x22, 0x10]).pokeBytes 0x210 [0x00, 0xEE]).stack.length < d := by
  refine ⟨by decide, ?_⟩
  intro d h
  cases h
  decide
theorem test_witness_SelfJumpChangesNothing : EndOfRun (code [0x12, 0x00]) :=
  ⟨⟨by decide, by decide⟩, 0x200, by decide, by decide⟩
/-- A key that is latched, a key that is not, and a register that numbers no key. -/
theorem test_witness_KeySkipsTestTheLatch :
    KeyPressed { State.reset with key := some 0 } 3 ∧ ¬KeyPressed State.reset 3 ∧
    15 < ((State.reset.setReg 3 0x10).reg 3).toNat := by
  refine ⟨⟨0, by decide, by decide⟩, ?_, by decide⟩
  rintro ⟨k, h, _⟩
  cases h
/-- SK-14, whose condition holds and takes pc beyond memory, and a skip at the last fetchable address whose condition does not. -/
theorem test_witness_SkipsAdvancePcByFourExactlyWhenTheirConditionHolds :
    (let s := { State.reset.pokeBytes 0xFFC [0x30, 0x00] with pc := 0xFFC }
     Fetches s (.seImm 0 0) ∧ IsSkipOn s (.seImm 0 0) (s.reg 0 = 0) ∧ s.reg 0 = 0) ∧
    (let s := { State.reset.pokeBytes 0xFFE [0x90, 0x00] with pc := 0xFFE }
     Fetches s (.sneReg 0 0 0) ∧ IsSkipOn s (.sneReg 0 0 0) (s.reg 0 ≠ s.reg 0) ∧ ¬s.reg 0 ≠ s.reg 0) :=
  ⟨⟨⟨by decide, 0x3000, by decide, by decide⟩, rfl, by decide⟩,
    ⟨⟨by decide, 0x9000, by decide, by decide⟩, rfl, by decide⟩⟩
theorem test_witness_TwoAddImmediatesCompose :
    let s := code [0x7F, 0xFF, 0x7F, 0x02]
    s.halted = false ∧ s.fetch16 s.pc.toNat = .ok (encode (.addImm 15 0xFF)) ∧
    s.fetch16 (s.pc.toNat + 2) = .ok (encode (.addImm 15 0x02)) := by decide
/-- The clauses of WroteResultFlag: x = 15 under either order (ALU-16), and x ≠ 15. -/
theorem test_witness_AddSetsTheCarry :
    after (State.regs (code [0x8F, 0x14]) [(15, 0xFF), (1, 0x01)]) (fun t => (t.cfg.flagOrder, t.reg VF)) =
      some (.flagLast, 1) ∧
    after (State.regs (codeWith resultLast [0x8F, 0x14]) [(15, 0xFF), (1, 0x01)]) (fun t => (t.cfg.flagOrder, t.reg VF)) =
      some (.resultLast, 0x00) ∧ (0 : Reg) ≠ VF := by decide
/-- ALU-24 and ALU-36: x = 15 in both subtractions, under either order. -/
theorem test_witness_SubtractionsSetNoBorrow :
    after (State.regs (code [0x8F, 0x15]) [(15, 0x05), (1, 0x07)]) (fun t => t.reg VF) = some 0 ∧
    after (State.regs (codeWith resultLast [0x8F, 0x15]) [(15, 0x05), (1, 0x07)]) (fun t => t.reg VF) = some 0xFE ∧
    after (State.regs (code [0x8F, 0x17]) [(15, 0x03), (1, 0x05)]) (fun t => t.reg VF) = some 1 ∧
    after (State.regs (codeWith resultLast [0x8F, 0x17]) [(15, 0x03), (1, 0x05)]) (fun t => t.reg VF) = some 0x02 := by decide
/-- Either shift source. -/
theorem test_witness_ShiftsSetTheBitShiftedOut :
    (let s := State.regs State.reset [(0, 0x04), (1, 0xFF)]
     (s.cfg.shiftSource = .Y → 0xFF = (s.reg 1).toNat) ∧ (s.cfg.shiftSource = .X → 0xFF = (s.reg 0).toNat)) ∧
    (let s := State.regs (State.resetWith shiftX) [(0, 0x04), (1, 0xFF)]
     (s.cfg.shiftSource = .Y → 0x04 = (s.reg 1).toNat) ∧ (s.cfg.shiftSource = .X → 0x04 = (s.reg 0).toNat)) := by decide
/-- A sprite whose only row is the last byte of memory: a covered cell that is lit, a cell that is not covered, and a sprite
that covers no lit cell. -/
theorem test_witness_DrawInvertsTheCoveredCells :
    let s := { State.reset.pokeBytes 0xFFF [0x80] with I := 0xFFF, disp := Display.toggle Display.blank 0 0 }
    (∀ k, k < (1 : Fin 16).val → s.indexed k < 4096) ∧ SpriteCovers s 0 1 1 0 0 ∧ s.pixel 0 0 = true ∧
    ¬SpriteCovers s 0 1 1 0 1 ∧ ¬∃ row col, SpriteCovers s 0 1 0 row col ∧ s.pixel row col = true := by
  refine ⟨?_, ⟨0, by decide, by decide, 0, by decide, by decide, by decide⟩, by decide, ?_, ?_⟩
  · intro k hk
    have e : k = 0 := Nat.lt_one_iff.mp hk
    subst e
    decide
  · rintro ⟨k, hk, _, c, _, hc, hb⟩
    have e : k = 0 := Nat.lt_one_iff.mp hk
    have e' : c = 1 := by
      have h0 : (0 : Byte).toNat % 64 + c = 1 := hc
      simpa using h0
    subst e e'
    revert hb
    decide
  · rintro ⟨_, _, ⟨k, hk, _⟩, _⟩
    exact absurd hk (Nat.not_lt_zero k)
/-- DRW-1 and DRW-2, glyph 0: the first draw turns (0,0) from 0 to 1; and a draw of no rows, which turns no cell. -/
theorem test_witness_DrawingTwiceRestoresTheDisplay :
    ((0 : Reg) ≠ VF ∧ (1 : Reg) ≠ VF ∧ ∀ k, k < (5 : Fin 16).val → { State.reset with I := 0x050 }.indexed k < 4096) ∧
    { State.reset with I := 0x050 }.pixel 0 0 = false ∧
    after { code [0xD0, 0x15] with I := 0x050 } (fun t => t.pixel 0 0) = some true ∧
    ∃ t, exec (.drw 0 1 0) State.reset = .next t ∧
      ¬∃ row col, State.reset.pixel row col = false ∧ t.pixel row col = true := by
  refine ⟨⟨by decide, by decide, ?_⟩, by decide, by decide, _, rfl, ?_⟩
  · intro k hk
    have hk' : k < 5 := hk
    show 80 + k < 4096
    omega
  · rintro ⟨row, col, h, h'⟩
    have h'' : State.reset.pixel row col = true := h'
    rw [h] at h''
    cases h''
/-- TT-7: the last register's byte is the last of memory. -/
theorem test_witness_DumpStoresTheRegisters :
    let s := { State.reset with I := 0xFF0 }
    s.indexed (15 : Reg).val < 4096 ∧ (15 : Reg) ≤ 15 ∧ ∀ r : Reg, 0xFEF ≠ s.indexed r.val := by decide
theorem test_witness_LoadFillsTheRegisters :
    { State.reset with I := 0xFF0 }.indexed (15 : Reg).val < 4096 ∧
    { State.reset with I := 0xFFF }.indexed (0 : Reg).val < 4096 ∧ (0 : Reg) < 1 := by decide
theorem test_witness_LoadAfterDumpReproducesTheRegisters :
    { State.reset with I := 0xFF0 }.indexed (15 : Reg).val < 4096 ∧ (14 : Reg) < 15 := by decide
/-- The clauses at their boundary: the last row or register is the first byte beyond memory; and an I that is itself beyond it. -/
theorem test_witness_AccessBeyondMemoryHalts :
    (0 < (2 : Fin 16).val ∧ 4096 < { State.reset with I := 0xFFF }.I.toNat + (2 : Fin 16).val) ∧
    4096 ≤ { State.reset with I := 0xFF1 }.indexed (15 : Reg).val ∧
    4096 ≤ { State.reset with I := 0x1000 }.indexed (0 : Reg).val ∧
    after { code [0xD0, 0x12] with I := 0xFFF } (fun t => (t.halted, t.faults)) = some (true, [.memoryOutOfBounds 0x1000]) := by
  decide
/-- TT-12: the block overwrites the instruction itself. -/
theorem test_witness_StoredCodeIsFetchedAfterwards :
    let s := { code [0xF1, 0x55] with I := 0x200 }
    Fetches s (.dump 1) ∧ s.indexed (1 : Reg).val < 4096 ∧ (1 : Reg) ≤ 1 ∧ (1 : Reg).val = (0 : Reg).val + 1 :=
  ⟨⟨by decide, 0xF155, by decide, by decide⟩, by decide, by decide, by decide⟩
theorem test_witness_UnnamedRegistersAreNeitherReadNorWritten :
    ∃ t, exec (.addReg 1 2) State.reset = .next t ∧ t.halted = false ∧ (3 : Reg) ∉ namedRegs (.addReg 1 2) :=
  ⟨_, rfl, by decide, by decide⟩
/-- A destination, and VF as a flag. -/
theorem test_witness_RegistersChangeOnlyByTheirWriters :
    after (State.regs (code [0x80, 0x14]) [(0, 0xFF), (1, 0x02)]) (fun t => (t.halted, t.reg 0, t.reg VF)) =
      some (false, 0x01, 1) ∧
    (State.regs (code [0x80, 0x14]) [(0, 0xFF), (1, 0x02)]).reg 0 = 0xFF ∧
    (State.regs (code [0x80, 0x14]) [(0, 0xFF), (1, 0x02)]).reg VF = 0 := by decide
/-- Each exception in turn: a cycle that ends not halted and fetches the component's writer. -/
theorem test_witness_EachComponentHasItsWriters :
    after (code [0xA1, 0x23]) (fun t => (t.halted, t.I)) = some (false, 0x123) ∧
    after (code [0x22, 0x10]) (fun t => (t.halted, t.stack)) = some (false, [0x202]) ∧
    after { code [0x00, 0xEE] with stack := [0x300] } (fun t => (t.halted, t.stack)) = some (false, []) ∧
    after { code [0xD0, 0x15] with I := 0x050 } (fun t => (t.halted, t.pixel 0 0)) = some (false, true) ∧
    after { State.regs (code [0xF0, 0x55]) [(0, 0xAB)] with I := 0x300 } (fun t => (t.halted, t.byteAt 0x300)) =
      some (false, 0xAB) := by decide
/-- A cycle that fetches FX15, one that fetches no FX15, and a machine the host can tick. -/
theorem test_witness_TimersFallOnlyByTheHostAndStopAtZero :
    Fetches (code [0xF2, 0x15]) (.ldDTVx 2) ∧ (∀ x, ¬Fetches State.reset (.ldDTVx x)) ∧
    after (code [0xF2, 0x15]) (fun t => t.halted) = some false ∧ after State.reset (fun t => t.halted) = some false ∧
    State.reset.halted = false := by
  refine ⟨⟨by decide, 0xF215, by decide, by decide⟩, ?_, by decide, by decide, by decide⟩
  rintro x ⟨_, ins, hf, hc⟩
  have e : ins = 0x0000 := by
    have h0 : State.reset.fetch16 State.reset.pc.toNat = .ok 0x0000 := by decide
    rw [h0] at hf
    cases hf
    rfl
  subst e
  have h1 : classify State.reset.cfg 0x0000 = .error (.unsupported 0x0000) := by decide
  rw [h1] at hc
  cases hc
/-- The invariant, from the values of the components it speaks of, at the default configuration. -/
theorem inv_of {s : State} {pc I : Word} {stack : List Word} {faults : List Error} (hc : s.cfg = Config.specDefaults)
    (hm : Memory.wf s.cfg.glyphs s.mem = true) (hh : s.halted = false) (hp : s.pc = pc) (hI : s.I = I)
    (hs : s.stack = stack) (hf : s.faults = faults) (h1 : stack.length ≤ 16) (h2 : ¬∃ e ∈ faults, e.isOutOfBounds = true)
    (h3 : pc.toNat ≤ 0x1002) (h4 : I.toNat ≤ 0x0FFF) (h5 : ∀ v ∈ stack, v.toNat ≤ 0x1000) : Inv s := by
  subst hp hI hs hf
  refine ⟨hm, ?_, by simpa [hh] using h2, fun _ => ⟨h3, h4, h5⟩⟩
  unfold StackFits
  rw [hc]
  exact h1
/-- The invariant holds of a state that is not halted, with a return address, a listed byte and a reported error. -/
theorem test_witness_StepKeepsInv :
    Inv { code [0x63, 0x12] with stack := [0x1000], faults := [.unsupportedOpcode 0] } ∧
    after { code [0x63, 0x12] with stack := [0x1000], faults := [.unsupportedOpcode 0] } (fun t => t.reg 3) = some 0x12 := by
  have h : Memory.wf (code [0x63, 0x12]).cfg.glyphs (code [0x63, 0x12]).mem = true := by decide
  exact ⟨inv_of (pc := 0x200) (I := 0) (stack := [0x1000]) (faults := [.unsupportedOpcode 0]) rfl h rfl rfl rfl rfl rfl
    (by decide) (by decide) (by decide) (by decide) (by simp), by decide⟩
theorem test_witness_RunsKeepInv :
    Inv (code [0x63, 0x12]) ∧
    ∃ t, hostRun [.setInputKey (some 5), .cycle, .decrementTimers 1] (code [0x63, 0x12]) = .next (t, [.ok, .ok, .ok]) ∧
      (t.reg 3, t.key) = (0x12, some 5) := by
  have h : ran [.setInputKey (some 5), .cycle, .decrementTimers 1] (code [0x63, 0x12]) (fun t => (t.reg 3, t.key)) =
      some ((0x12, some 5), [.ok, .ok, .ok]) := by decide
  exact ⟨inv_of (pc := 0x200) (I := 0) (stack := []) (faults := []) rfl (by decide) rfl rfl rfl rfl rfl
    (by decide) (by decide) (by decide) (by decide) (by simp),
    run_of_ran h⟩
/-- The host reads a cell for ever: the calls, the states and the replies of an infinite run from the reset state. -/
theorem reads_for_ever : InfiniteRun (fun _ => .get 31 63) (fun _ => State.reset) (fun _ => .bit false) := fun _ => rfl

theorem test_witness_InfiniteRunsKeepInv :
    Inv State.reset ∧ InfiniteRun (fun _ => .get 31 63) (fun _ => State.reset) (fun _ => .bit false) :=
  ⟨inv_of (pc := 0x200) (I := 0) (stack := []) (faults := []) rfl (by decide) rfl rfl rfl rfl rfl
    (by decide) (by decide) (by decide) (by decide) (by simp), reads_for_ever⟩
/-- Both clauses. -/
theorem test_witness_InfiniteRunsAreTheLimitsOfFiniteRuns :
    InfiniteRun (fun _ => .get 31 63) (fun _ => State.reset) (fun _ => .bit false) ∧
    ∀ k, ∃ t rs, hostRun (firstOf (fun _ => HostCall.get 31 63) k) State.reset = .next (t, rs) := by
  refine ⟨reads_for_ever, fun k => ⟨State.reset, List.replicate k (.bit false), ?_⟩⟩
  rw [show firstOf (fun _ => HostCall.get 31 63) k = List.replicate k (.get 31 63) by simp [firstOf]]
  induction k with
  | zero => rfl
  | succ k ih =>
    have hc : hostCall (.get 31 63) State.reset = .next (State.reset, .bit false) := reads_for_ever 0
    rw [List.replicate_succ, hostRun, hc]
    simp only [ih]
    rfl
/-- A run that reports an error, and a run from a halted machine (which can only be the empty one). -/
theorem test_witness_ErrorsStayUntilInitialize :
    HostCall.init ∉ [HostCall.cycle, .setInputKey none] ∧
    (∃ t, hostRun [.cycle, .setInputKey none] State.reset =
      .next (t, [.error (.unsupportedOpcode 0x0000), .ok]) ∧ t.faults = [.unsupportedOpcode 0x0000]) ∧
    hostRun [] { State.reset with halted := true } = .next ({ State.reset with halted := true }, []) := by
  have h : ran [.cycle, .setInputKey none] State.reset (fun t => t.faults) =
      some ([.unsupportedOpcode 0x0000], [.error (.unsupportedOpcode 0x0000), .ok]) := by decide
  exact ⟨by decide, run_of_ran h, rfl⟩
/-- A byte written twice, and written once. -/
theorem test_witness_CanonicalMemoriesThatReadAlikeAreEqual :
    let g := Config.standardGlyphs
    let m := Memory.write g (Memory.write g [] 0x300 7) 0x300 5
    let m' := Memory.write g [] 0x300 5
    Memory.wf g m = true ∧ Memory.wf g m' = true ∧ ∀ a, Memory.read g m a = Memory.read g m' a :=
  ⟨by decide, by decide, fun _ => rfl⟩
/-- The boundaries of the address map, and of the length of an image. -/
theorem test_witness_ResetMemoryFollowsTheAddressMap :
    ((0x04F : Nat) < 0x050 ∨ (0x0A0 : Nat) ≤ 0x04F) ∧ ((0x0A0 : Nat) < 0x050 ∨ (0x0A0 : Nat) ≤ 0x0A0) ∧
    0x050 + 5 * (15 : Fin 16).val + (4 : Fin 5).val = 0x09F := by decide
/-- One byte too many, and exactly fitting. -/
theorem test_witness_OversizedImageIsRefused :
    State.reset.halted = false ∧ 4096 < 0xFFF + [0xAA#8, 0xBB#8].length ∧ 0xFFE + [0xAA#8, 0xBB#8].length ≤ 4096 := by decide
theorem test_witness_ImageIsPlacedVerbatim :
    State.reset.halted = false ∧ 0xFFE + [0xAA#8, 0xBB#8].length ≤ 4096 ∧ 1 < [0xAA#8, 0xBB#8].length ∧
    ((0xFFD : Nat) < 0xFFE ∨ 0xFFE + [0xAA#8, 0xBB#8].length ≤ 0xFFD) ∧ 4096 < 0xFFF + [0xAA#8, 0xBB#8].length := by decide
/-- The shortest program that has a first word. -/
theorem test_witness_BootFetchesTheProgramsFirstWord : [0x63#8, 0x12#8].length ≤ 3584 := by decide
theorem test_witness_SetInputKeySetsTheLatch : State.reset.halted = false := by decide
/-- The two ways out of the grid. -/
theorem test_witness_GetReadsTheCellOrReportsItsBounds :
    State.reset.halted = false ∧ (32 ≤ 32 ∨ 64 ≤ 0) ∧ (32 ≤ 0 ∨ 64 ≤ 64) := by decide

end Sys2Proof.Tests
end

/-! # The state (spec/10_state.md): what every step keeps, and who writes which component -/

namespace Sys2Proof.Machine

/-! ## The invariant, for each way a step ends -/

/-- R103: an address operand fits in 12 bits. -/
theorem addr16_toNat_le (nnn : Addr12) : (addr16 nnn).toNat ≤ 0x0FFF := by
  have := nnn.isLt
  rw [addr16, BitVec.toNat_setWidth_of_le (by decide)]
  omega

/-- The addition of 2 to a pc does not wrap below the bound of R38. -/
theorem toNat_add_two {p : Word} (hp : p.toNat ≤ 0x1000) : (p + 2).toNat = p.toNat + 2 := by
  bv_omega

/-- The fetch advance keeps the invariant. -/
theorem Inv.advancePc {s : State} (hs : Inv s) (hp : s.pc.toNat ≤ 0x0FFE) : Inv s.advancePc := by
  obtain ⟨hmem, hstack, hhalt, hbounds⟩ := hs
  refine ⟨hmem, hstack, hhalt, fun hh => ?_⟩
  obtain ⟨_, hI, hret⟩ := hbounds hh
  exact ⟨by rw [State.advancePc_pc, toNat_add_two (by omega)]; omega, hI, hret⟩

/-- An error that does not halt keeps the invariant (R268). -/
theorem Inv.report {s : State} {e : Error} (hs : Inv s) (he : e.isOutOfBounds = false) : Inv (s.report e) := by
  obtain ⟨hmem, hstack, hhalt, hbounds⟩ := hs
  exact ⟨hmem, hstack, by simpa [he, or_and_right, exists_or] using hhalt, hbounds⟩

/-- A MemoryOutOfBounds on the fetch keeps the invariant: the bounds no longer bind, since the machine is halted (R269). -/
theorem Inv.haltOnFetch {s : State} (hs : Inv s) (a : Nat) : Inv (s.haltOnFetch (.memoryOutOfBounds a)) := by
  obtain ⟨hmem, hstack, _, _⟩ := hs
  exact ⟨hmem, hstack, by simp [or_and_right, exists_or, Error.isOutOfBounds], by simp⟩

/-- A MemoryOutOfBounds inside an instruction establishes the invariant, whatever the free values are (R269, log entry 3). -/
theorem inv_haltInside (s : State) (a : Nat) : Inv (s.haltInside (.memoryOutOfBounds a)) := by
  obtain ⟨hmem, hstack⟩ := haltInside_fits s (.memoryOutOfBounds a)
  exact ⟨hmem, hstack, by simp [or_and_right, exists_or, Error.isOutOfBounds], by simp⟩

/-- A stack that is not full has room for one more entry (R40). -/
theorem stackFits_of_push {s t : State} {v : Word} (hc : t.cfg = s.cfg) (ht : t.stack = v :: s.stack)
    (hroom : stackFull s.cfg.stackDepth s.stack.length = false) : StackFits t := by
  unfold StackFits
  rw [hc, ht]
  split
  · rename_i d hd
    simpa [stackFull, hd] using hroom
  · trivial

/-- Removing entries keeps the stack within its capacity (R40). -/
theorem StackFits.of_length_le {s t : State} (hs : StackFits s) (hc : t.cfg = s.cfg)
    (hle : t.stack.length ≤ s.stack.length) : StackFits t := by
  unfold StackFits at hs ⊢
  rw [hc]
  split
  · rename_i d hd
    simp only [hd] at hs
    omega
  · trivial

/-- An effect without an error keeps the stack within its capacity (R40). -/
theorem Ordinary.stackFits {i : Instr} {s t : State} (o : Ordinary i s t) (hs : StackFits s) : StackFits t := by
  rcases o.stack with h | ⟨_, _, h, hroom⟩ | ⟨_, _, _, h⟩
  · exact hs.of_length_le o.cfg (by rw [h])
  · exact stackFits_of_push o.cfg h hroom
  · exact hs.of_length_le o.cfg (by rw [h]; simp)

/-- The return addresses after an effect without an error: the old ones and the advanced pc (R144). -/
theorem Ordinary.mem_stack {i : Instr} {s t : State} (o : Ordinary i s t) {v : Word} (hv : v ∈ t.stack) :
    v = s.pc ∨ v ∈ s.stack := by
  rcases o.stack with h | ⟨_, _, h, _⟩ | ⟨_, _, _, h⟩
  · exact .inr (h ▸ hv)
  · exact List.mem_cons.mp (h ▸ hv)
  · exact .inr (h ▸ List.mem_cons_of_mem _ hv)

/-- An effect without an error, from a pc just advanced, keeps the invariant. -/
theorem Ordinary.inv {i : Instr} {s t : State} (o : Ordinary i s t) (hs : Inv s) (hp : s.pc.toNat ≤ 0x1000) : Inv t := by
  obtain ⟨hmem, hstack, hhalt, hbounds⟩ := hs
  refine ⟨?_, o.stackFits hstack, ?_, fun ht => ?_⟩
  · rw [o.cfg]; exact o.wf hmem
  · rw [o.halted, o.faults]; exact hhalt
  · obtain ⟨_, hI, hret⟩ := hbounds (o.halted ▸ ht)
    refine ⟨?_, ?_, fun v hv => ?_⟩
    · rcases o.pc with h | h | ⟨nnn, h⟩ | h
      · rw [h]; omega
      · rw [h, toNat_add_two hp]; omega
      · have := addr16_toNat_le nnn
        rw [h]; omega
      · have := hret _ h
        omega
    · rcases o.index with h | ⟨nnn, _, h⟩
      · rw [h]; exact hI
      · rw [h]; exact addr16_toNat_le nnn
    · rcases o.mem_stack hv with rfl | h
      · exact hp
      · exact hret v h

/-- An instruction executed from a pc just advanced keeps the invariant, whichever way it ends. -/
theorem inv_of_exec {i : Instr} {s t : State} (hs : Inv s) (hp : s.pc.toNat ≤ 0x1000) (h : exec i s = .next t) : Inv t := by
  cases ends_of_exec h with
  | haltsInside a => exact inv_haltInside s a
  | reports e he => exact hs.report he
  | ordinary _ o => exact o.inv hs hp

/-- Settles O48: the invariant is kept by each of the ways a step ends, a failed fetch, an Unsupported word, and the three
ends of an instruction. -/
theorem stepKeepsInv : Obligations.StepKeepsInv := by
  intro s t hs h
  rcases step_cases (not_halted_of_step h) with ⟨a, _, _, he⟩ | ⟨ins, hp, _, _, he⟩ | ⟨_, i, hp, _, _, he⟩
  · cases he.symm.trans h
    exact hs.haltOnFetch a
  · cases he.symm.trans h
    exact (hs.advancePc hp).report rfl
  · have hp' : s.advancePc.pc.toNat ≤ 0x1000 := by rw [State.advancePc_pc, toNat_add_two (by omega)]; omega
    exact inv_of_exec (hs.advancePc hp) hp' (he.symm.trans h)

end Sys2Proof.Machine

/-! ## Registers: who writes them, who reads them -/

namespace Sys2Proof.Machine

/-- An instruction that does not halt the machine inside leaves a register that is not its destination as it was (R32,
R33). -/
theorem reg_of_exec {i : Instr} {s t : State} {r : Reg} (h : exec i s = .next t) (ht : t.halted = false)
    (hr : r ∉ destRegs i) : t.reg r = s.reg r := by
  cases i with
  | cls _ | jp _ | ldI _ | ldDTVx _ => cases h; rfl
  | ret u =>
    cases hs : s.stack with
    | nil => cases (execRet_empty hs).symm.trans h; rfl
    | cons top rest => cases (execRet_cons hs).symm.trans h; rfl
  | call nnn =>
    rcases execCall_cases nnn s with ⟨_, he⟩ | ⟨_, he⟩
    · cases he.symm.trans h; rfl
    · cases he.symm.trans h; rfl
  | seImm _ _ | sneImm _ _ | seReg _ _ _ | sneReg _ _ _ | skp _ | sknp _ =>
    cases h
    exact State.reg_congr (s.skipIf_V _) r
  | ldImm x _ | addImm x _ | ldReg x _ | orReg x _ | andReg x _ | xorReg x _ | ldVxDT x =>
    cases h
    exact s.reg_setReg_ne _ (List.ne_of_not_mem_cons hr)
  | addReg x _ | subReg x _ | shrReg x _ | subnReg x _ | shlReg x _ =>
    obtain ⟨hx, hf⟩ := List.ne_and_not_mem_of_not_mem_cons hr
    cases h
    exact s.reg_writeResultFlag_ne _ _ hx (List.ne_of_not_mem_cons hf)
  | drw x y n =>
    rcases execDrw_cases x y n s with ⟨d, hit, he⟩ | ⟨a, he⟩
    · cases he.symm.trans h
      exact s.reg_setReg_ne _ (List.ne_of_not_mem_cons hr)
    · cases he.symm.trans h
      cases ht
  | dump x =>
    rcases execDump_cases x s with ⟨m, he, _⟩ | ⟨a, he⟩
    · cases he.symm.trans h
      rfl
    · cases he.symm.trans h
      cases ht
  | load x =>
    simp only [exec, execLoad] at h
    split at h
    · cases h
      cases ht
    · cases h
      exact loadRegs_keeps ‹_› hr

/-- Every destination of an instruction is a register it names. -/
theorem destRegs_subset_namedRegs (i : Instr) : destRegs i ⊆ namedRegs i := by
  cases i <;> simp [destRegs, namedRegs]

/-- A skip and a register write touch different components. -/
theorem State.skipIf_setReg (s : State) (r : Reg) (v : Byte) (c : Bool) :
    (s.setReg r v).skipIf c = (s.skipIf c).setReg r v := by
  cases c <;> rfl

/-- A shift reads x or y, whichever SHIFT_SOURCE says (R190, R192). -/
theorem State.shiftOperand_setReg (s : State) {r x y : Reg} (v : Byte) (hx : x ≠ r) (hy : y ≠ r) :
    (s.setReg r v).shiftOperand x y = s.shiftOperand x y := by
  simp only [State.shiftOperand, State.setReg_cfg, State.reg_setReg_ne s v hx, State.reg_setReg_ne s v hy]

/-- A draw reads no register but x and y, and writes only VF (R221, R224). -/
theorem execDrw_setReg {x y : Reg} {n : Fin 16} {s t : State} {r : Reg} (v : Byte) (hx : x ≠ r) (hy : y ≠ r)
    (hf : VF ≠ r) (h : execDrw x y n s = .next t) (ht : t.halted = false) :
    execDrw x y n (s.setReg r v) = .next (t.setReg r v) := by
  have hrows : drawRows (s.setReg r v) (s.spriteX x) (s.spriteY y) (List.range n.val) s.disp false =
      drawRows s (s.spriteX x) (s.spriteY y) (List.range n.val) s.disp false :=
    drawRows_congr (s := s) (t := s.setReg r v) rfl (fun _ => rfl) _ _ _ _ _
  have hX : (s.setReg r v).spriteX x = s.spriteX x := by simp only [State.spriteX, State.reg_setReg_ne s v hx]
  have hY : (s.setReg r v).spriteY y = s.spriteY y := by simp only [State.spriteY, State.reg_setReg_ne s v hy]
  unfold execDrw at h ⊢
  rw [hX, hY, State.setReg_disp, hrows]
  split at h
  · cases h
    cases ht
  · cases h
    rw [State.setReg_comm _ _ _ hf]
    rfl

/-- A dump reads no register above x (R242). -/
theorem execDump_setReg {x : Reg} {s t : State} {r : Reg} (v : Byte) (hr : r ∉ regsUpTo x)
    (h : execDump x s = .next t) (ht : t.halted = false) : execDump x (s.setReg r v) = .next (t.setReg r v) := by
  unfold execDump at h ⊢
  rw [storeRegs_setReg _ _ _ hr]
  split at h
  · cases h
    cases ht
  · rename_i he
    cases h
    rw [he]
    rfl

/-- A load reads no register above x (R243). -/
theorem execLoad_setReg {x : Reg} {s t : State} {r : Reg} (v : Byte) (hr : r ∉ regsUpTo x)
    (h : execLoad x s = .next t) (ht : t.halted = false) : execLoad x (s.setReg r v) = .next (t.setReg r v) := by
  unfold execLoad at h ⊢
  rw [loadRegs_setReg _ _ _ hr]
  split at h
  · cases h
    cases ht
  · rename_i he
    cases h
    rw [he]
    rfl

/-- CALL reads and writes no register (R144). -/
theorem execCall_setReg (nnn : Addr12) {s t : State} (r : Reg) (v : Byte) (h : execCall nnn s = .next t) :
    execCall nnn (s.setReg r v) = .next (t.setReg r v) := by
  unfold execCall at h ⊢
  rw [State.setReg_cfg, State.setReg_stack]
  split at h <;> cases h
  · rw [if_pos ‹_›]
    rfl
  · rw [if_neg ‹_›]
    rfl

/-- RET reads and writes no register (R142). -/
theorem execRet_setReg (u : Fin 16) {s t : State} (r : Reg) (v : Byte) (h : execRet u s = .next t) :
    execRet u (s.setReg r v) = .next (t.setReg r v) := by
  cases hs : s.stack with
  | nil =>
    cases (execRet_empty hs).symm.trans h
    exact execRet_empty (s := s.setReg r v) hs
  | cons top rest =>
    cases (execRet_cons hs).symm.trans h
    exact execRet_cons (s := s.setReg r v) hs

/-- The key test reads the latch alone (R165). -/
@[simp] theorem State.keyIs_setReg (s : State) (r : Reg) (v b : Byte) : (s.setReg r v).keyIs b = s.keyIs b := rfl

/-- An instruction that does not halt the machine inside commutes with a write of a register it does not name (R32, R33). -/
theorem exec_setReg {i : Instr} {s t : State} {r : Reg} (v : Byte) (h : exec i s = .next t) (ht : t.halted = false)
    (hr : r ∉ namedRegs i) : exec i (s.setReg r v) = .next (t.setReg r v) := by
  have hne : ∀ q ∈ namedRegs i, q ≠ r := fun q hq e => hr (e ▸ hq)
  have hread : ∀ q ∈ namedRegs i, (s.setReg r v).reg q = s.reg q := fun q hq => s.reg_setReg_ne v (hne q hq)
  cases i with
  | cls _ | jp _ | ldI _ =>
    cases h
    rfl
  | ret u => exact execRet_setReg u r v h
  | call nnn => exact execCall_setReg nnn r v h
  | seImm _ _ | sneImm _ _ | seReg _ _ _ | sneReg _ _ _ | skp _ | sknp _ =>
    simp only [namedRegs, List.forall_mem_cons] at hread
    cases h
    simp [exec, execSeImm, execSneImm, execSeReg, execSneReg, execSkp, execSknp, State.skipIf_setReg, hread]
  | ldImm x _ | addImm x _ | ldReg x _ | orReg x _ | andReg x _ | xorReg x _ | ldVxDT x =>
    have hx : x ≠ r := hne x List.mem_cons_self
    simp only [namedRegs, List.forall_mem_cons] at hread
    cases h
    simp [exec, execLdImm, execAddImm, execLdReg, execOrReg, execAndReg, execXorReg, execLdVxDT,
      State.setReg_comm s v _ hx, hread]
  | addReg x y | subReg x y | shrReg x y | subnReg x y | shlReg x y =>
    simp only [namedRegs, List.forall_mem_cons] at hread hne
    obtain ⟨hx, hy, hf, _⟩ := hne
    cases h
    simp [exec, execAddReg, execSubReg, execShrReg, execSubnReg, execShlReg,
      s.writeResultFlag_setReg v _ _ hx.symm hf.symm, s.shiftOperand_setReg v hx hy, hread]
  | drw x y n =>
    simp only [namedRegs, List.forall_mem_cons] at hne
    obtain ⟨hx, hy, hf, _⟩ := hne
    exact execDrw_setReg v hx hy hf h ht
  | ldDTVx x =>
    cases h
    simp only [exec, execLdDTVx, hread x List.mem_cons_self]
    rfl
  | dump x => exact execDump_setReg v hr h ht
  | load x => exact execLoad_setReg v hr h ht

/-- Settles O43: an instruction writes only destinations, which it names, and it commutes with a write of any register that
it does not name. -/
theorem unnamedRegistersAreNeitherReadNorWritten : Obligations.UnnamedRegistersAreNeitherReadNorWritten :=
  fun i _ _ _ v h ht hr =>
    ⟨reg_of_exec h ht fun hd => hr (destRegs_subset_namedRegs i hd), exec_setReg v h ht hr⟩

/-! ## A cycle that ends not halted: the writers of each component -/

/-- A cycle that ends not halted either reports one error after the fetch advance and does nothing else, or has the effect
of the instruction it fetched. -/
theorem step_reports_or_executes {s t : State} (h : step s = .next t) (ht : t.halted = false) :
    (∃ e, t = s.advancePc.report e) ∨
    ∃ i, Fetches s i ∧ exec i s.advancePc = .next t ∧ Ordinary i s.advancePc t := by
  have hs := not_halted_of_step h
  rcases step_cases hs with ⟨a, _, _, he⟩ | ⟨ins, _, _, _, he⟩ | ⟨ins, i, _, hf, hc, he⟩
  · cases he.symm.trans h
    cases ht
  · cases he.symm.trans h
    exact .inl ⟨_, rfl⟩
  · have hexec := he.symm.trans h
    cases ends_of_exec hexec with
    | haltsInside a => cases ht
    | reports e _ => exact .inl ⟨e, rfl⟩
    | ordinary _ o => exact .inr ⟨i, ⟨hs, ins, hf, hc⟩, hexec, o⟩

/-- Settles O44: a cycle that changes a register executes the instruction it fetched, and that has the register as a
destination. -/
theorem registersChangeOnlyByTheirWriters : Obligations.RegistersChangeOnlyByTheirWriters := by
  intro s t r h ht hne
  rcases step_reports_or_executes h ht with ⟨e, rfl⟩ | ⟨i, hi, hexec, _⟩
  · exact absurd rfl hne
  · refine ⟨i, hi, ?_⟩
    by_contra hr
    exact hne ((reg_of_exec hexec ht hr).trans (State.reg_congr s.advancePc_V r))

/-- Settles O45: a cycle that only reports changes none of these components, and each other effect has the writers that
`Ordinary` lists. -/
theorem eachComponentHasItsWriters : Obligations.EachComponentHasItsWriters := by
  intro s t h ht
  rcases step_reports_or_executes h ht with ⟨e, rfl⟩ | ⟨i, hi, _, o⟩
  · exact ⟨.inl rfl, .inl rfl, .inl fun _ _ => rfl, .inl fun _ => rfl, rfl, rfl, rfl⟩
  · refine ⟨?_, ?_, ?_, ?_, o.sound, o.key, o.cfg⟩
    · rcases o.index with hI | ⟨nnn, rfl, _⟩
      · exact .inl hI
      · exact .inr ⟨nnn, hi⟩
    · rcases o.stack with hst | ⟨nnn, rfl, _⟩ | ⟨u, _, rfl, _⟩
      · exact .inl hst
      · exact .inr (.inl ⟨nnn, hi⟩)
      · exact .inr (.inr ⟨u, hi⟩)
    · rcases o.disp with hd | ⟨u, rfl⟩ | ⟨x, y, n, rfl⟩
      · exact .inl (State.pixel_congr (s := s) hd)
      · exact .inr (.inl ⟨u, hi⟩)
      · exact .inr (.inr ⟨x, y, n, hi⟩)
    · rcases o.mem with hm | ⟨x, rfl⟩
      · exact .inl (State.byteAt_congr (s := s) hm o.cfg)
      · exact .inr ⟨x, hi⟩

end Sys2Proof.Machine

/-! ## Errors stay -/

namespace Sys2Proof.Machine

/-- The errors after an instruction start with those before it (R268, R269). -/
theorem faults_grow_of_exec {i : Instr} {s t : State} (h : exec i s = .next t) : s.faults <+: t.faults := by
  cases ends_of_exec h with
  | haltsInside a => exact ⟨_, rfl⟩
  | reports e _ => exact ⟨_, rfl⟩
  | ordinary _ o => rw [o.faults]

/-- The errors after a step start with those before it (R261, R269). -/
theorem faults_grow_of_step {s t : State} (h : step s = .next t) : s.faults <+: t.faults := by
  rcases step_cases (not_halted_of_step h) with ⟨a, _, _, he⟩ | ⟨ins, _, _, _, he⟩ | ⟨_, i, _, _, _, he⟩
  · cases he.symm.trans h
    exact ⟨_, rfl⟩
  · cases he.symm.trans h
    exact ⟨_, rfl⟩
  · exact s.advancePc_faults ▸ faults_grow_of_exec (he.symm.trans h)

/-- `cycle()` is the step with a reply. -/
theorem step_of_cycle {s t : State} {r : Reply} (h : s.cycle = .next (t, r)) : step s = .next t := by
  unfold State.cycle at h
  split at h <;> cases h
  assumption

/-- Placing bytes reports nothing, whether or not they fit. -/
theorem State.pokeBytes_faults (bytes : List Byte) (s : State) (a : Nat) : (s.pokeBytes a bytes).faults = s.faults := by
  induction bytes generalizing s a with
  | nil => rfl
  | cons v bytes ih =>
    unfold State.pokeBytes
    split
    · exact ih _ _
    · rfl

/-- ImageTooLarge is not appended to `faults` (R286). -/
theorem State.loadImage_faults (s : State) (bytes : List Byte) (a : Nat) : (s.loadImage bytes a).1.faults = s.faults := by
  unfold State.loadImage
  split
  · rfl
  · exact s.pokeBytes_faults bytes a

/-- Every call but `init` that answers started from a machine that is not halted (R269). -/
theorem not_halted_of_hostCall {c : HostCall} {s t : State} {r : Reply} (hc : c ≠ .init)
    (h : hostCall c s = .next (t, r)) : s.halted = false := by
  cases c with
  | init => exact absurd rfl hc
  | cycle => exact not_halted_of_step (step_of_cycle h)
  | loadImage _ _ | decrementTimers _ | setInputKey _ | get _ _ =>
    unfold hostCall at h
    cases hs : s.halted
    · rfl
    · simp [hs] at h

/-- Every call but `init` keeps the errors reported before it (R47). -/
theorem faults_grow_of_hostCall {c : HostCall} {s t : State} {r : Reply} (hc : c ≠ .init)
    (h : hostCall c s = .next (t, r)) : s.faults <+: t.faults := by
  have hs := not_halted_of_hostCall hc h
  cases c with
  | init => exact absurd rfl hc
  | cycle => exact faults_grow_of_step (step_of_cycle h)
  | loadImage bytes a =>
    have ht : s.loadImage bytes a = (t, r) := by simpa [hostCall, hs] using h
    rw [← s.loadImage_faults bytes a, ht]
  | decrementTimers _ | setInputKey _ | get _ _ =>
    simp only [hostCall, hs] at h
    cases h
    exact ⟨[], List.append_nil _⟩

/-- A run of a first call and others: the call answers next, and the others run from there. -/
theorem of_hostRun_cons {c : HostCall} {cs : List HostCall} {s t : State} {rs : List Reply}
    (h : hostRun (c :: cs) s = .next (t, rs)) :
    ∃ u r rs', hostCall c s = .next (u, r) ∧ hostRun cs u = .next (t, rs') ∧ rs = r :: rs' := by
  unfold hostRun at h
  split at h
  · cases h
  · cases h
  · rename_i u r hc
    split at h <;> cases h
    exact ⟨u, r, _, hc, ‹_›, rfl⟩

/-- A run without `init` keeps the errors reported before it. -/
theorem faults_grow_of_hostRun {cs : List HostCall} {s t : State} {rs : List Reply} (hc : HostCall.init ∉ cs)
    (h : hostRun cs s = .next (t, rs)) : s.faults <+: t.faults := by
  induction cs generalizing s rs with
  | nil =>
    cases h
    exact ⟨[], List.append_nil _⟩
  | cons c cs ih =>
    obtain ⟨hne, hcs⟩ := List.ne_and_not_mem_of_not_mem_cons hc
    obtain ⟨u, r, rs', hu, hrun, _⟩ := of_hostRun_cons h
    exact (faults_grow_of_hostCall hne.symm hu).trans (ih hcs hrun)

/-- Settles O52: `faults` grows by induction over the calls, and a halted machine answers no first call. -/
theorem errorsStayUntilInitialize : Obligations.ErrorsStayUntilInitialize := by
  intro calls s t replies hc h
  constructor
  · obtain ⟨later, hl⟩ := faults_grow_of_hostRun hc h
    exact ⟨later, hl.symm⟩
  · intro hh
    cases calls with
    | nil =>
      cases h
      exact ⟨rfl, rfl⟩
    | cons c cs =>
      obtain ⟨u, r, _, hu, _, _⟩ := of_hostRun_cons h
      have hs := not_halted_of_hostCall (List.ne_and_not_mem_of_not_mem_cons hc).1.symm hu
      rw [hh] at hs
      cases hs

end Sys2Proof.Machine

/-! ## The canonical form of memory -/

namespace Sys2Proof.Machine

/-- The byte at an address, by the first listed cell. -/
theorem Memory.read_cons (g : Vector (Vector Byte 5) 16) (b : Nat) (v : Byte) (m : Memory) (a : Nat) :
    Memory.read g ((b, v) :: m) a = if a = b then v else Memory.read g m a := by
  simp only [Memory.read, Memory.lookup]
  split <;> rfl

/-- Below its first address, a canonical memory reads as unlisted. -/
theorem Memory.read_of_wfFrom_lt {g : Vector (Vector Byte 5) 16} {m : Memory} {lo a : Nat}
    (w : Memory.wfFrom g lo m = true) (h : a < lo) : Memory.read g m a = Memory.unlisted g a := by
  simp [Memory.read, Memory.lookup_of_wfFrom_lt w h]

/-- What the canonical form says of the first cell and of the rest. -/
theorem Memory.wfFrom_cons_iff {g : Vector (Vector Byte 5) 16} {lo a : Nat} {v : Byte} {m : Memory} :
    Memory.wfFrom g lo ((a, v) :: m) = true ↔
      lo ≤ a ∧ a < memSize ∧ v ≠ Memory.unlisted g a ∧ Memory.wfFrom g (a + 1) m = true := by
  simp only [Memory.wfFrom, Bool.and_eq_true, decide_eq_true_eq, and_assoc]

/-- A memory whose first cell lies below another's cells reads differently there. -/
theorem Memory.read_ne_of_first_lt {g : Vector (Vector Byte 5) 16} {lo hi a : Nat} {v : Byte} {m m' : Memory}
    (w : Memory.wfFrom g lo ((a, v) :: m) = true) (w' : Memory.wfFrom g hi m' = true) (h : a < hi) :
    Memory.read g ((a, v) :: m) a ≠ Memory.read g m' a := by
  obtain ⟨_, _, hv, _⟩ := Memory.wfFrom_cons_iff.mp w
  simpa [Memory.read_cons, Memory.read_of_wfFrom_lt w' h] using hv

/-- Canonical memories whose first cells are at one address and that read alike have tails that read alike. -/
theorem Memory.tails_alike {g : Vector (Vector Byte 5) 16} {a : Nat} {v v' : Byte} {m m' : Memory}
    (w : Memory.wfFrom g (a + 1) m = true) (w' : Memory.wfFrom g (a + 1) m' = true)
    (h : ∀ b, Memory.read g ((a, v) :: m) b = Memory.read g ((a, v') :: m') b) (b : Nat) :
    Memory.read g m b = Memory.read g m' b := by
  by_cases hb : b = a
  · rw [hb, Memory.read_of_wfFrom_lt w (Nat.lt_succ_self a), Memory.read_of_wfFrom_lt w' (Nat.lt_succ_self a)]
  · simpa [Memory.read_cons, hb] using h b

/-- Canonical memories above one address that read alike are equal. -/
theorem Memory.eq_of_wfFrom_of_read {g : Vector (Vector Byte 5) 16} {m m' : Memory} {lo : Nat}
    (w : Memory.wfFrom g lo m = true) (w' : Memory.wfFrom g lo m' = true)
    (h : ∀ a, Memory.read g m a = Memory.read g m' a) : m = m' := by
  induction m generalizing lo m' with
  | nil =>
    cases m' with
    | nil => rfl
    | cons c m' => exact absurd (h c.1).symm (Memory.read_ne_of_first_lt (hi := c.1 + 1) w' rfl (Nat.lt_succ_self _))
  | cons c m ih =>
    obtain ⟨a, v⟩ := c
    cases m' with
    | nil => exact absurd (h a) (Memory.read_ne_of_first_lt (hi := a + 1) w rfl (Nat.lt_succ_self _))
    | cons c' m' =>
      obtain ⟨a', v'⟩ := c'
      obtain ⟨_, hm, hv, wt⟩ := Memory.wfFrom_cons_iff.mp w
      obtain ⟨_, hm', hv', wt'⟩ := Memory.wfFrom_cons_iff.mp w'
      rcases Nat.lt_trichotomy a a' with hlt | rfl | hgt
      · exact absurd (h a) (Memory.read_ne_of_first_lt w (Memory.wfFrom_cons_iff.mpr ⟨le_rfl, hm', hv', wt'⟩) hlt)
      · have hvv : v = v' := by simpa [Memory.read_cons] using h a
        rw [hvv, ih wt wt' (Memory.tails_alike wt wt' h)]
      · exact absurd (h a').symm (Memory.read_ne_of_first_lt w' (Memory.wfFrom_cons_iff.mpr ⟨le_rfl, hm, hv, wt⟩) hgt)

/-- Settles O53, by induction over both lists of cells: if their first addresses differ, the memories read differently at
the lower one. -/
theorem canonicalMemoriesThatReadAlikeAreEqual : Obligations.CanonicalMemoriesThatReadAlikeAreEqual :=
  fun _ _ _ w w' h => Memory.eq_of_wfFrom_of_read w w' h

end Sys2Proof.Machine

/-! # Memory (spec/20_memory.md): single bytes, the fetch, stored code, and the map after reset -/

namespace Sys2Proof.Machine

/-! ## Single bytes -/

/-- A write inside memory succeeds. -/
theorem State.memWrite_of_lt {s : State} {a : Nat} (v : Byte) (h : a < memSize) :
    s.memWrite a v = .ok { s with mem := Memory.write s.cfg.glyphs s.mem a v } :=
  if_pos h

/-- A write outside memory is MemoryOutOfBounds (R264). -/
theorem State.memWrite_of_ge {s : State} {a : Nat} (v : Byte) (h : memSize ≤ a) :
    s.memWrite a v = .error (.memoryOutOfBounds a) :=
  if_neg (Nat.not_lt.mpr h)

/-- What any address reads as after a write that succeeded. -/
theorem State.memRead_of_memWrite {s t : State} {a : Nat} {v : Byte} (h : s.memWrite a v = .ok t) (b : Nat) :
    t.memRead b = if b = a then .ok v else s.memRead b := by
  rcases s.memWrite_cases a v with ⟨ha, hw⟩ | ⟨_, hw⟩
  · cases hw.symm.trans h
    by_cases hb : b = a
    · simp [State.memRead, State.byteAt, Memory.read_write, hb, ha]
    · simp [State.memRead, State.byteAt, Memory.read_write, hb]
  · cases hw.symm.trans h

/-- Settles O7: a write succeeds inside memory, where reads follow it, and fails outside. -/
theorem byteReadsAsLastWritten : Obligations.ByteReadsAsLastWritten := by
  intro s a v
  refine ⟨fun ha => ?_, fun ha => ⟨State.memRead_of_ge ha, State.memWrite_of_ge v ha⟩⟩
  have hw := State.memWrite_of_lt (s := s) v ha
  have hread := State.memRead_of_memWrite hw
  exact ⟨_, hw, (hread a).trans (if_pos rfl), fun b hb => (hread b).trans (if_neg hb), .of_mem rfl⟩

/-! ## The fetch -/

/-- A fetch whose two bytes lie inside memory is their word (R72). -/
theorem State.fetch16_of_lt {s : State} {p : Nat} (h : p + 1 < memSize) :
    s.fetch16 p = .ok (wordOfBytes (s.byteAt p) (s.byteAt (p + 1))) := by
  rw [State.fetch16, State.memRead_of_lt (Nat.lt_of_succ_lt h), State.memRead_of_lt h]

/-- A fetch that starts outside memory fails on its first byte (R264). -/
theorem State.fetch16_of_ge {s : State} {p : Nat} (h : memSize ≤ p) :
    s.fetch16 p = .error (.memoryOutOfBounds p) := by
  rw [State.fetch16, State.memRead_of_ge h]

/-- A fetch at the last address fails on its second byte (R264). -/
theorem State.fetch16_last (s : State) : s.fetch16 4095 = .error (.memoryOutOfBounds 4096) := by
  rw [State.fetch16, State.memRead_of_lt (by decide), State.memRead_of_ge (by decide)]

/-- Settles O9: the fetch by where it starts, and the value of the word it reads. -/
theorem fetchIsBigEndianAtAnyAddress : Obligations.FetchIsBigEndianAtAnyAddress := by
  intro s p
  refine ⟨fun h => ⟨_, State.fetch16_of_lt h, toNat_wordOfBytes _ _⟩, ?_, State.fetch16_of_ge⟩
  rintro rfl
  exact s.fetch16_last

/-! ## Stored code -/

/-- A block that ends inside memory lies inside it. -/
theorem State.indexed_lt_of_le {s : State} {r x : Reg} (hr : r ≤ x) (hx : s.indexed x.val < memSize) :
    s.indexed r.val < memSize :=
  Nat.lt_of_le_of_lt (Nat.add_le_add_left (Fin.le_def.mp hr) _) hx

/-- A dump whose block lies inside memory: each register up to x is at its address, every byte outside the block stays, and
nothing but memory changes (R242). -/
theorem execDump_of_lt {x : Reg} {s : State} (h : s.indexed x.val < memSize) :
    ∃ m, execDump x s = .next { s with mem := m } ∧
      (∀ r : Reg, r ≤ x → Memory.read s.cfg.glyphs m (s.indexed r.val) = s.reg r) ∧
      (∀ a, (∀ r : Reg, r ≤ x → a ≠ s.indexed r.val) → Memory.read s.cfg.glyphs m a = s.byteAt a) := by
  obtain ⟨m, hm, hin, hout, _⟩ :=
    storeRegs_ok (regsUpTo x) s fun r hr => State.indexed_lt_of_le ((mem_regsUpTo x r).mp hr) h
  simp only [mem_regsUpTo] at hin hout
  exact ⟨m, by rw [execDump, hm], hin, hout⟩

/-- Settles O42: the step is the dump on the advanced pc, and a fetch inside the block reads two adjacent bytes of it. -/
theorem storedCodeIsFetchedAfterwards : Obligations.StoredCodeIsFetchedAfterwards := by
  intro x s hf hx
  obtain ⟨m, hdump, hin, _⟩ := execDump_of_lt (s := s.advancePc) hx
  have hbytes : ∀ r : Reg, r ≤ x → { s.advancePc with mem := m }.byteAt (s.indexed r.val) = s.reg r := hin
  refine ⟨{ s.advancePc with mem := m }, (step_of_fetches hf).trans hdump, s.advancePc_pc, ?_, hbytes, ?_⟩
  · intro r q hq hqr
    have hnext : s.indexed r.val + 1 = s.indexed q.val := by rw [hqr]; rfl
    have hr : r ≤ x := Fin.le_trans (Fin.le_def.mpr (by omega)) hq
    rw [State.fetch16_of_lt (hnext ▸ State.indexed_lt_of_le hq hx), hnext, hbytes r hr, hbytes q hq]
  · exact ((frame_advancePc s).mono (by simp)).trans ((Frame.of_mem rfl).mono (by simp))

/-! ## The map after reset -/

/-- After reset nothing is listed, so every address reads as unlisted. -/
theorem byteAt_resetWith (cfg : Config) (a : Nat) :
    (State.resetWith cfg).byteAt a = Memory.unlisted cfg.glyphs a := rfl

/-- Byte k of glyph d in the glyph table (R76, R77). -/
theorem Memory.unlisted_glyph (g : Vector (Vector Byte 5) 16) (d : Fin 16) (k : Fin 5) :
    Memory.unlisted g (glyphBase + 5 * d.val + k.val) = g[d][k] := by
  have hoff : glyphBase + 5 * d.val + k.val - glyphBase = 5 * d.val + k.val := by omega
  have hdigit : (5 * d.val + k.val) / 5 = d.val := by omega
  have hbyte : (5 * d.val + k.val) % 5 = k.val := by omega
  rw [Memory.unlisted, dif_pos (by omega)]
  simp only [hoff, hdigit, hbyte, Fin.getElem_fin]

/-- Outside the glyph table an unlisted byte is 0 (R78). -/
theorem Memory.unlisted_of_outside (g : Vector (Vector Byte 5) 16) {a : Nat}
    (h : a < glyphBase ∨ glyphBase + 80 ≤ a) : Memory.unlisted g a = 0 :=
  dif_neg (by omega)

/-- `loadImage` answers ok exactly if the image ends inside memory (R286). -/
theorem State.loadImage_ok_iff (s : State) (bytes : List Byte) (a : Nat) :
    (s.loadImage bytes a).2 = .ok ↔ a + bytes.length ≤ memSize := by
  unfold State.loadImage
  split
  · simpa using ‹memSize < a + bytes.length›
  · simpa using ‹¬memSize < a + bytes.length›

/-- Settles O54: memory reads as unlisted, by the glyph table and outside it, and the image's bound is that of `loadImage`. -/
theorem resetMemoryFollowsTheAddressMap : Obligations.ResetMemoryFollowsTheAddressMap := by
  intro cfg
  simp only [byteAt_resetWith]
  refine ⟨rfl, Memory.unlisted_glyph cfg.glyphs, fun a => Memory.unlisted_of_outside cfg.glyphs, fun bytes => ?_⟩
  rw [State.loadImage_ok_iff, show memSize = 0x200 + 3584 from rfl, Nat.add_le_add_iff_left]

end Sys2Proof.Machine

/-! # Encoding (spec/30_encoding.md): the encoder and the dispatch, the opcode table, and the cycle -/

namespace Sys2Proof

/-! ## The field split (R101) -/

/-- Settles O1: the fields in numbers, and nn, nnn and the word from the nibbles. -/
theorem fieldSplitReadsTheNamedBits : Obligations.FieldSplitReadsTheNamedBits := by
  intro ins
  have hsplit := splitFields_nibbles (splitFields ins).w (splitFields ins).x (splitFields ins).y (splitFields ins).n
  rw [← word_eq_nibbles] at hsplit
  exact ⟨splitFields_w_toNat ins, splitFields_x_toNat ins, splitFields_y_toNat ins, splitFields_n_toNat ins,
    splitFields_nn_toNat ins, splitFields_nnn_toNat ins, congrArg Fields.nn hsplit, congrArg Fields.nnn hsplit,
    word_eq_nibbles ins⟩

/-! ## Decoding through the classification -/

/-- The dispatch reads every instruction from its own word (R111, R112). -/
theorem classifyFields_encode (i : Instr) : classifyFields (splitFields (encode i)) = some i := by
  cases i with
  | cls u => exact Laws.DispatchInvertsEncode.cls u
  | ret u => exact Laws.DispatchInvertsEncode.ret u
  | jp nnn => exact Laws.DispatchInvertsEncode.jp nnn
  | call nnn => exact Laws.DispatchInvertsEncode.call nnn
  | seImm x nn => exact Laws.DispatchInvertsEncode.seImm x nn
  | sneImm x nn => exact Laws.DispatchInvertsEncode.sneImm x nn
  | seReg x y u => exact Laws.DispatchInvertsEncode.seReg x y u
  | ldImm x nn => exact Laws.DispatchInvertsEncode.ldImm x nn
  | addImm x nn => exact Laws.DispatchInvertsEncode.addImm x nn
  | ldReg x y => exact Laws.DispatchInvertsEncode.ldReg x y
  | orReg x y => exact Laws.DispatchInvertsEncode.orReg x y
  | andReg x y => exact Laws.DispatchInvertsEncode.andReg x y
  | xorReg x y => exact Laws.DispatchInvertsEncode.xorReg x y
  | addReg x y => exact Laws.DispatchInvertsEncode.addReg x y
  | subReg x y => exact Laws.DispatchInvertsEncode.subReg x y
  | shrReg x y => exact Laws.DispatchInvertsEncode.shrReg x y
  | subnReg x y => exact Laws.DispatchInvertsEncode.subnReg x y
  | shlReg x y => exact Laws.DispatchInvertsEncode.shlReg x y
  | sneReg x y u => exact Laws.DispatchInvertsEncode.sneReg x y u
  | ldI nnn => exact Laws.DispatchInvertsEncode.ldI nnn
  | drw x y n => exact Laws.DispatchInvertsEncode.drw x y n
  | skp x => exact Laws.DispatchInvertsEncode.skp x
  | sknp x => exact Laws.DispatchInvertsEncode.sknp x
  | ldVxDT x => exact Laws.DispatchInvertsEncode.ldVxDT x
  | ldDTVx x => exact Laws.DispatchInvertsEncode.ldDTVx x
  | dump x => exact Laws.DispatchInvertsEncode.dump x
  | load x => exact Laws.DispatchInvertsEncode.load x

/-- An instruction's word classifies as it where the machine has it, and is Unsupported elsewhere (R107, R110). -/
theorem classify_encode (cfg : Config) (i : Instr) :
    classify cfg (encode i) = if i.wf cfg then .ok i else .error (.unsupported (encode i)) := by
  rw [classify, classifyFields_encode]

/-- Decoding two bytes or more classifies the word of the first two and leaves the others (R100). -/
theorem decode_cons_cons (cfg : Config) (hi lo : Byte) (rest : List Byte) :
    decode cfg (hi :: lo :: rest) = (classify cfg (wordOfBytes hi lo)).map (fun i => (i, rest)) := by
  rw [decode]
  cases classify cfg (wordOfBytes hi lo) <;> rfl

/-- Decoding an instruction's bytes is classifying its word. -/
theorem decode_encodeBytes (cfg : Config) (i : Instr) (rest : List Byte) :
    decode cfg (encodeBytes i ++ rest) = (classify cfg (encode i)).map (fun i => (i, rest)) :=
  (decode_cons_cons cfg _ _ rest).trans (by rw [wordOfBytes_bytesOfWord])

/-- Bytes decode only if there are two, whose word classifies. -/
theorem decode_ok {cfg : Config} {bytes rest : List Byte} {i : Instr} (h : decode cfg bytes = .ok (i, rest)) :
    ∃ hi lo, bytes = hi :: lo :: rest ∧ classify cfg (wordOfBytes hi lo) = .ok i := by
  match bytes with
  | [] | [_] => cases h
  | hi :: lo :: tail =>
    rw [decode_cons_cons] at h
    cases hc : classify cfg (wordOfBytes hi lo) with
    | error e => rw [hc] at h; cases h
    | ok j => rw [hc] at h; cases h; exact ⟨hi, lo, rfl, hc⟩

/-- Settles O3: decoding the bytes is classifying the word, which the dispatch reads as the instruction. -/
theorem decodeInvertsEncode : Obligations.DecodeInvertsEncode := by
  intro cfg i rest
  rw [decode_encodeBytes, classify_encode]
  constructor
  · intro hwf
    rw [if_pos hwf]
    rfl
  · intro hwf
    rw [if_neg (Bool.eq_false_iff.mp hwf)]
    rfl

/-- An instruction's bytes, alone, decode to it. -/
theorem decode_encodeBytes_of_wf {cfg : Config} (i : Instr) (h : i.wf cfg = true) :
    decode cfg (encodeBytes i) = .ok (i, []) :=
  (decodeInvertsEncode cfg i []).1 h

/-- Settles O2: each pair of bytes is the encoding of the instruction it decodes to. -/
theorem sampleWordsDecode : Obligations.SampleWordsDecode :=
  ⟨decode_encodeBytes_of_wf (.ldImm 3 0x12) rfl,
    decode_encodeBytes_of_wf (.ldI 0x123) rfl,
    decode_encodeBytes_of_wf (.seImm 2 0xFA) rfl,
    decode_encodeBytes_of_wf (.cls 0) rfl,
    decode_encodeBytes_of_wf (.jp 0x234) rfl,
    decode_encodeBytes_of_wf (.call 0xABC) rfl,
    decode_encodeBytes_of_wf (.sneImm 15 0x01) rfl,
    decode_encodeBytes_of_wf (.seReg 10 11 0) rfl,
    decode_encodeBytes_of_wf (.addImm 14 0x03) rfl,
    decode_encodeBytes_of_wf (.shrReg 10 11) rfl,
    decode_encodeBytes_of_wf (.sneReg 10 11 0) rfl,
    decode_encodeBytes_of_wf (.drw 1 2 15) rfl,
    decode_encodeBytes_of_wf (.skp 1) rfl,
    decode_encodeBytes_of_wf (.load 3) rfl⟩

/-! ## The word of a classified instruction -/

/-- Family 0: the word of the instruction that nn selects. -/
theorem encode_of_classifyFamily0 {f : Fields} {i : Instr} (h : classifyFamily0 f = some i) :
    encode i = 0x0#4 ++ f.x ++ f.nn := by
  unfold classifyFamily0 at h
  split at h <;> cases h
  all_goals
    rename_i hnn
    exact congrArg (0x0#4 ++ f.x ++ ·) (BitVec.eq_of_toNat_eq hnn.symm)

/-- Family 8: the word of the instruction that n selects. -/
theorem encode_of_classifyFamily8 {f : Fields} {i : Instr} (h : classifyFamily8 f = some i) :
    encode i = 0x8#4 ++ f.x ++ f.y ++ f.n := by
  unfold classifyFamily8 at h
  split at h <;> cases h
  all_goals
    rename_i hn
    exact congrArg (0x8#4 ++ f.x ++ f.y ++ ·) (BitVec.eq_of_toNat_eq hn.symm)

/-- Family E: the word of the instruction that nn selects. -/
theorem encode_of_classifyFamilyE {f : Fields} {i : Instr} (h : classifyFamilyE f = some i) :
    encode i = 0xE#4 ++ f.x ++ f.nn := by
  unfold classifyFamilyE at h
  split at h <;> cases h
  all_goals
    rename_i hnn
    exact congrArg (0xE#4 ++ f.x ++ ·) (BitVec.eq_of_toNat_eq hnn.symm)

/-- Family F: the word of the instruction that nn selects. -/
theorem encode_of_classifyFamilyF {f : Fields} {i : Instr} (h : classifyFamilyF f = some i) :
    encode i = 0xF#4 ++ f.x ++ f.nn := by
  unfold classifyFamilyF at h
  split at h <;> cases h
  all_goals
    rename_i hnn
    exact congrArg (0xF#4 ++ f.x ++ ·) (BitVec.eq_of_toNat_eq hnn.symm)

section
variable {ins : Word} {k : BitVec 4}

/-- A word of a known family, from its second nibble and its low byte. -/
theorem imm_eq_of_w (hw : (splitFields ins).w = k) : k ++ (splitFields ins).x ++ (splitFields ins).nn = ins :=
  hw ▸ (word_eq_imm ins).symm

/-- A word of a known family, from its low twelve bits. -/
theorem addr_eq_of_w (hw : (splitFields ins).w = k) : k ++ (splitFields ins).nnn = ins :=
  hw ▸ (word_eq_addr ins).symm

/-- A word of a known family, from its three low nibbles. -/
theorem nibbles_eq_of_w (hw : (splitFields ins).w = k) :
    k ++ (splitFields ins).x ++ (splitFields ins).y ++ (splitFields ins).n = ins :=
  hw ▸ (word_eq_nibbles ins).symm

end

/-- The word from which the dispatch reads an instruction is that instruction's word: no other selects it (log entry 9). -/
theorem encode_of_classifyFields {ins : Word} {i : Instr} (h : classifyFields (splitFields ins) = some i) :
    encode i = ins := by
  unfold classifyFields at h
  split at h
  case h_1 hw => exact (encode_of_classifyFamily0 h).trans (imm_eq_of_w (BitVec.eq_of_toNat_eq hw))
  case h_9 hw => exact (encode_of_classifyFamily8 h).trans (nibbles_eq_of_w (BitVec.eq_of_toNat_eq hw))
  case h_13 hw => exact (encode_of_classifyFamilyE h).trans (imm_eq_of_w (BitVec.eq_of_toNat_eq hw))
  case h_14 hw => exact (encode_of_classifyFamilyF h).trans (imm_eq_of_w (BitVec.eq_of_toNat_eq hw))
  case h_2 hw | h_3 hw | h_11 hw =>
    cases h
    exact addr_eq_of_w (BitVec.eq_of_toNat_eq hw)
  case h_4 hw | h_5 hw | h_7 hw | h_8 hw =>
    cases h
    exact imm_eq_of_w (BitVec.eq_of_toNat_eq hw)
  case h_6 hw | h_10 hw | h_12 hw =>
    cases h
    exact nibbles_eq_of_w (BitVec.eq_of_toNat_eq hw)
  case h_15 => cases h

/-- Settles O4: the bytes are those of the word, and the word is the instruction's. -/
theorem encodeInvertsDecode : Obligations.EncodeInvertsDecode := by
  intro cfg bytes rest i h
  obtain ⟨hi, lo, rfl, hc⟩ := decode_ok h
  obtain ⟨hfields, hwf⟩ := classify_ok hc
  refine ⟨hwf, ?_⟩
  rw [encodeBytes, encode_of_classifyFields hfields, bytesOfWord_wordOfBytes]
  rfl

/-! ## The mask and match table (R112) -/

/-- The mask column of R112. -/
def Instr.mask (cfg : Config) : Instr → Word
  | .cls _ | .ret _ => if cfg.lenientDecode then 0xF0FF else 0xFFFF
  | .seReg _ _ _ | .sneReg _ _ _ => if cfg.lenientDecode then 0xF000 else 0xF00F
  | .jp _ | .call _ | .ldI _ | .seImm _ _ | .sneImm _ _ | .ldImm _ _ | .addImm _ _ | .drw _ _ _ => 0xF000
  | .ldReg _ _ | .orReg _ _ | .andReg _ _ | .xorReg _ _ | .addReg _ _ | .subReg _ _ | .shrReg _ _ | .subnReg _ _
  | .shlReg _ _ => 0xF00F
  | .skp _ | .sknp _ | .ldVxDT _ | .ldDTVx _ | .dump _ | .load _ => 0xF0FF

/-- The row of R112 that an instruction stands in: the match column is its word under the mask. -/
def Instr.row (cfg : Config) (i : Instr) : Row := ⟨i.rowNumber, encode i &&& i.mask cfg, i.mask cfg⟩

/-- An instruction's row accepts its word. -/
theorem Instr.row_accepts (cfg : Config) (i : Instr) : (i.row cfg).accepts (encode i) = true :=
  beq_self_eq_true _

/-- The mask of a family keeps w alone. -/
theorem and_F000 (ins : Word) : ins &&& 0xF000 = (splitFields ins).w ++ 0#12 := by
  conv_lhs => rw [word_eq_addr ins]
  exact (BitVec.and_append (x₂ := BitVec.allOnes 4) (y₂ := 0#12)).trans
    (by rw [BitVec.and_allOnes, BitVec.and_zero])

/-- The mask of a second dispatch on n keeps w and n. -/
theorem and_F00F (ins : Word) : ins &&& 0xF00F = (splitFields ins).w ++ 0#4 ++ 0#4 ++ (splitFields ins).n := by
  conv_lhs => rw [word_eq_nibbles ins]
  exact (BitVec.and_append (x₂ := BitVec.allOnes 4 ++ 0#4 ++ 0#4) (y₂ := BitVec.allOnes 4)).trans
    (by rw [BitVec.and_append, BitVec.and_append, BitVec.and_allOnes, BitVec.and_allOnes, BitVec.and_zero, BitVec.and_zero])

/-- The mask of a second dispatch on nn keeps w and nn. -/
theorem and_F0FF (ins : Word) : ins &&& 0xF0FF = (splitFields ins).w ++ 0#4 ++ (splitFields ins).nn := by
  conv_lhs => rw [word_eq_imm ins]
  exact (BitVec.and_append (x₂ := BitVec.allOnes 4 ++ 0#4) (y₂ := BitVec.allOnes 8)).trans
    (by rw [BitVec.and_append, BitVec.and_allOnes, BitVec.and_allOnes, BitVec.and_zero])

/-- R110: the unused field is admitted at every value under LENIENT_DECODE, and else at 0. -/
theorem Config.admitsUnused_iff (cfg : Config) (u : Fin 16) :
    cfg.admitsUnused u = true ↔ cfg.lenientDecode = true ∨ u = 0 := by
  rw [Config.admitsUnused, Bool.or_eq_true, beq_iff_eq]

/-- The row of an instruction that the machine has is in its table. -/
theorem Instr.row_mem {cfg : Config} {i : Instr} (h : i.wf cfg = true) : i.row cfg ∈ opcodeTable cfg := by
  cases i with
  | jp _ | call _ | ldI _ | seImm _ _ | sneImm _ _ | ldImm _ _ | addImm _ _ | drw _ _ _ =>
    simp only [Instr.row, Instr.mask, encode, and_F000, split_addr_w, split_imm_w, split_nibbles_w]
    simp [opcodeTable, Instr.rowNumber]
  | ldReg _ _ | orReg _ _ | andReg _ _ | xorReg _ _ | addReg _ _ | subReg _ _ | shrReg _ _ | subnReg _ _ | shlReg _ _ =>
    simp only [Instr.row, Instr.mask, encode, and_F00F, split_nibbles_w, split_nibbles_n]
    simp [opcodeTable, Instr.rowNumber]
  | skp _ | sknp _ =>
    have hk : cfg.keySkips = true := h
    simp only [Instr.row, Instr.mask, encode, and_F0FF, split_imm_w, split_imm_nn]
    simp [opcodeTable, Instr.rowNumber, hk]
  | ldVxDT _ | ldDTVx _ | dump _ | load _ =>
    simp only [Instr.row, Instr.mask, encode, and_F0FF, split_imm_w, split_imm_nn]
    simp [opcodeTable, Instr.rowNumber]
  | cls u | ret u =>
    cases hl : cfg.lenientDecode
    · obtain rfl : u = 0 := by simpa [hl] using (cfg.admitsUnused_iff u).mp h
      simp [opcodeTable, Instr.rowNumber, Instr.row, Instr.mask, hl, encode, nibble]
    · simp only [Instr.row, Instr.mask, encode, and_F0FF, split_imm_w, split_imm_nn, if_pos hl]
      simp [opcodeTable, Instr.rowNumber, hl]
  | seReg _ _ u | sneReg _ _ u =>
    cases hl : cfg.lenientDecode
    · obtain rfl : u = 0 := by simpa [hl] using (cfg.admitsUnused_iff u).mp h
      simp only [Instr.row, Instr.mask, encode, hl, Bool.false_eq_true, if_false, and_F00F, split_nibbles_w, split_nibbles_n]
      simp [opcodeTable, Instr.rowNumber, hl, nibble]
    · simp only [Instr.row, Instr.mask, encode, and_F000, split_nibbles_w, if_pos hl]
      simp [opcodeTable, Instr.rowNumber, hl]

section
variable {cfg : Config} {number : Nat} {ins p : Word} {k n : BitVec 4} {nn : Byte}

/-- R112: a row accepts the words that have its pattern under its mask. -/
theorem and_mask_of_accepts {m : Word} (h : Row.accepts ⟨number, p, m⟩ ins = true) : ins &&& m = p :=
  beq_iff_eq.mp h

/-- A word that the row of a family accepts has the pattern's first nibble. -/
theorem w_of_accepts (h : Row.accepts ⟨number, p, 0xF000⟩ ins = true) (hw : (splitFields p).w = k := by decide) :
    (splitFields ins).w = k := by
  rw [← hw, ← and_mask_of_accepts h, and_F000, split_addr_w]

/-- A word that a row of a second dispatch on n accepts has the pattern's first and last nibble. -/
theorem nibbles_of_accepts (h : Row.accepts ⟨number, p, 0xF00F⟩ ins = true) (hw : (splitFields p).w = k := by decide)
    (hn : (splitFields p).n = n := by decide) : k ++ (splitFields ins).x ++ (splitFields ins).y ++ n = ins := by
  rw [← hw, ← hn, ← and_mask_of_accepts h, and_F00F, split_nibbles_w, split_nibbles_n]
  exact (word_eq_nibbles ins).symm

/-- A word that a row of a second dispatch on nn accepts has the pattern's first nibble and low byte. -/
theorem imm_of_accepts (h : Row.accepts ⟨number, p, 0xF0FF⟩ ins = true) (hw : (splitFields p).w = k := by decide)
    (hnn : (splitFields p).nn = nn := by decide) : k ++ (splitFields ins).x ++ nn = ins := by
  rw [← hw, ← hnn, ← and_mask_of_accepts h, and_F0FF, split_imm_w, split_imm_nn]
  exact (word_eq_imm ins).symm

/-- Rows 1 and 2 leave open an unused field that the machine admits (R110). -/
theorem imm_of_accepts_flow
    (h : Row.accepts ⟨number, p, if cfg.lenientDecode then 0xF0FF else 0xFFFF⟩ ins = true)
    (hp : p = k ++ nibble 0 ++ nn := by decide) : ∃ u, cfg.admitsUnused u = true ∧ k ++ nibble u ++ nn = ins := by
  subst hp
  cases hl : cfg.lenientDecode with
  | true =>
    rw [if_pos hl] at h
    exact ⟨_, (cfg.admitsUnused_iff _).mpr (.inl hl), imm_of_accepts h (split_imm_w ..) (split_imm_nn ..)⟩
  | false =>
    rw [if_neg (Bool.eq_false_iff.mp hl)] at h
    exact ⟨0, (cfg.admitsUnused_iff 0).mpr (.inr rfl), (and_mask_of_accepts h).symm.trans BitVec.and_allOnes⟩

/-- Rows 7 and 19 leave open an unused field that the machine admits (R110). -/
theorem nibbles_of_accepts_skip
    (h : Row.accepts ⟨number, p, if cfg.lenientDecode then 0xF000 else 0xF00F⟩ ins = true)
    (hp : p = k ++ nibble 0 ++ nibble 0 ++ nibble 0 := by decide) :
    ∃ x y u, cfg.admitsUnused u = true ∧ k ++ nibble x ++ nibble y ++ nibble u = ins := by
  subst hp
  cases hl : cfg.lenientDecode with
  | true =>
    rw [if_pos hl] at h
    exact ⟨_, _, _, (cfg.admitsUnused_iff _).mpr (.inl hl), nibbles_eq_of_w (w_of_accepts h (split_nibbles_w ..))⟩
  | false =>
    rw [if_neg (Bool.eq_false_iff.mp hl)] at h
    exact ⟨_, _, 0, (cfg.admitsUnused_iff 0).mpr (.inr rfl),
      nibbles_of_accepts h (split_nibbles_w ..) (split_nibbles_n ..)⟩

/-- A word that a row accepts is the word of an instruction that the machine has. -/
theorem exists_encode_of_accepts {r : Row} (hr : r ∈ opcodeTable cfg) (hm : r.accepts ins = true) :
    ∃ i : Instr, i.wf cfg = true ∧ encode i = ins := by
  simp only [opcodeTable, List.mem_append, List.mem_cons, List.not_mem_nil, or_false, List.mem_ite_nil_right] at hr
  rcases hr with (((((rfl | rfl | rfl | rfl | rfl | rfl | rfl | rfl | rfl) |
    (rfl | rfl | rfl | rfl | rfl | rfl | rfl | rfl | rfl)) | (rfl | rfl | rfl)) | ⟨hk, rfl | rfl⟩) |
    (rfl | rfl | rfl | rfl))
  · obtain ⟨u, hu, he⟩ := imm_of_accepts_flow (k := 0x0) (nn := 0xE0) hm
    exact ⟨.cls u, hu, he⟩
  · obtain ⟨u, hu, he⟩ := imm_of_accepts_flow (k := 0x0) (nn := 0xEE) hm
    exact ⟨.ret u, hu, he⟩
  · exact ⟨.jp _, rfl, addr_eq_of_w (w_of_accepts hm)⟩
  · exact ⟨.call _, rfl, addr_eq_of_w (w_of_accepts hm)⟩
  · exact ⟨.seImm _ _, rfl, imm_eq_of_w (w_of_accepts hm)⟩
  · exact ⟨.sneImm _ _, rfl, imm_eq_of_w (w_of_accepts hm)⟩
  · obtain ⟨x, y, u, hu, he⟩ := nibbles_of_accepts_skip (k := 0x5) hm
    exact ⟨.seReg x y u, hu, he⟩
  · exact ⟨.ldImm _ _, rfl, imm_eq_of_w (w_of_accepts hm)⟩
  · exact ⟨.addImm _ _, rfl, imm_eq_of_w (w_of_accepts hm)⟩
  · exact ⟨.ldReg _ _, rfl, nibbles_of_accepts hm⟩
  · exact ⟨.orReg _ _, rfl, nibbles_of_accepts hm⟩
  · exact ⟨.andReg _ _, rfl, nibbles_of_accepts hm⟩
  · exact ⟨.xorReg _ _, rfl, nibbles_of_accepts hm⟩
  · exact ⟨.addReg _ _, rfl, nibbles_of_accepts hm⟩
  · exact ⟨.subReg _ _, rfl, nibbles_of_accepts hm⟩
  · exact ⟨.shrReg _ _, rfl, nibbles_of_accepts hm⟩
  · exact ⟨.subnReg _ _, rfl, nibbles_of_accepts hm⟩
  · exact ⟨.shlReg _ _, rfl, nibbles_of_accepts hm⟩
  · obtain ⟨x, y, u, hu, he⟩ := nibbles_of_accepts_skip (k := 0x9) hm
    exact ⟨.sneReg x y u, hu, he⟩
  · exact ⟨.ldI _, rfl, addr_eq_of_w (w_of_accepts hm)⟩
  · exact ⟨.drw _ _ _, rfl, nibbles_eq_of_w (w_of_accepts hm)⟩
  · exact ⟨.skp _, hk, imm_of_accepts hm⟩
  · exact ⟨.sknp _, hk, imm_of_accepts hm⟩
  · exact ⟨.ldVxDT _, rfl, imm_of_accepts hm⟩
  · exact ⟨.ldDTVx _, rfl, imm_of_accepts hm⟩
  · exact ⟨.dump _, rfl, imm_of_accepts hm⟩
  · exact ⟨.load _, rfl, imm_of_accepts hm⟩

end

/-- Two rows of R112 differ where both masks look. -/
theorem opcodeTable_disjoint (cfg : Config) :
    (opcodeTable cfg).Pairwise (fun r q => r.pattern &&& q.mask ≠ q.pattern &&& r.mask) := by
  unfold opcodeTable
  cases cfg.lenientDecode <;> cases cfg.keySkips <;> decide

/-- Rows that differ where both masks look accept no word in common. -/
theorem Row.not_accepts_both {r q : Row} {ins : Word} (h : r.pattern &&& q.mask ≠ q.pattern &&& r.mask)
    (hr : r.accepts ins = true) : q.accepts ins ≠ true := by
  intro hq
  rw [← beq_iff_eq.mp hr, ← beq_iff_eq.mp hq, BitVec.and_assoc, BitVec.and_assoc, BitVec.and_comm q.mask] at h
  exact h rfl

/-- A row that accepts a word is the only one that does. -/
theorem filter_accepts_of_mem {cfg : Config} {ins : Word} {r : Row} (hr : r ∈ opcodeTable cfg)
    (ha : r.accepts ins = true) : (opcodeTable cfg).filter (fun q => q.accepts ins) = [r] := by
  have hmem : r ∈ (opcodeTable cfg).filter (fun q => q.accepts ins) := List.mem_filter.mpr ⟨hr, ha⟩
  have hall : ∀ q ∈ (opcodeTable cfg).filter (fun q => q.accepts ins), q.accepts ins = true :=
    fun q hq => (List.mem_filter.mp hq).2
  have hdis := (opcodeTable_disjoint cfg).filter (fun q => q.accepts ins)
  generalize (opcodeTable cfg).filter (fun q => q.accepts ins) = accepted at hmem hall hdis ⊢
  match accepted with
  | [] => cases hmem
  | [q] => rw [List.mem_singleton.mp hmem]
  | q :: q' :: _ =>
    have hqq := List.rel_of_pairwise_cons hdis List.mem_cons_self
    exact absurd (hall q' (by simp)) (Row.not_accepts_both hqq (hall q (by simp)))

/-- Settles O5: a classified word is accepted by its instruction's row and by no other, and a word that some row accepts is
that of an instruction, so that it classifies. -/
theorem classifyFollowsTheOpcodeTable : Obligations.ClassifyFollowsTheOpcodeTable := by
  intro cfg ins
  refine ⟨fun i hi => ?_, fun e he => ?_⟩
  · obtain ⟨hfields, hwf⟩ := classify_ok hi
    obtain rfl := encode_of_classifyFields hfields
    rw [filter_accepts_of_mem (Instr.row_mem hwf) (Instr.row_accepts cfg i)]
    rfl
  · rcases classify_cases ins cfg with ⟨i, _, _, hc⟩ | hc
    · cases he.symm.trans hc
    · refine ⟨Except.error.inj (he.symm.trans hc), List.filter_eq_nil_iff.mpr fun r hr ha => ?_⟩
      obtain ⟨i, hwf, rfl⟩ := exists_encode_of_accepts hr ha
      rw [classify_encode, if_pos hwf] at hc
      cases hc

/-! ## The Unsupported words (R113) -/

/-- A word is Unsupported exactly if the dispatch names no instruction that the machine has. -/
theorem classify_unsupported_iff (cfg : Config) (ins : Word) :
    classify cfg ins = .error (.unsupported ins) ↔ ∀ i, classifyFields (splitFields ins) = some i → i.wf cfg = false := by
  unfold classify
  cases classifyFields (splitFields ins) with
  | none => simp
  | some i => cases hwf : i.wf cfg <;> simp [hwf]

/-- R110: the unused field is refused exactly under strict decode at a value other than 0. -/
theorem Config.refusesUnused_iff (cfg : Config) (b : BitVec 4) :
    cfg.admitsUnused b.toFin = false ↔ cfg.lenientDecode = false ∧ b ≠ 0 := by
  rw [← Bool.not_eq_true, cfg.admitsUnused_iff, not_or, Bool.not_eq_true]
  exact and_congr_right' BitVec.toFin_inj.not

section
variable (cfg : Config) (f : Fields)

/-- Family 0 has only CLS and RET, with x as R110 admits it. -/
theorem family0_refuses_iff : (∀ i, classifyFamily0 f = some i → i.wf cfg = false) ↔
    ¬((f.nn = 0xE0 ∨ f.nn = 0xEE) ∧ (cfg.lenientDecode = true ∨ f.x = 0)) := by
  rw [← BitVec.toNat_inj, ← BitVec.toNat_inj]
  unfold classifyFamily0
  split
  case h_1 hnn => simp [hnn, Instr.wf, cfg.refusesUnused_iff]
  case h_2 hnn => simp [hnn, Instr.wf, cfg.refusesUnused_iff]
  case h_3 hE0 hEE => exact iff_of_true nofun fun h => h.1.elim hE0 hEE

/-- Family 8 has no instruction for these n. -/
theorem family8_refuses_iff : (∀ i, classifyFamily8 f = some i → i.wf cfg = false) ↔
    f.n ∈ [0x8#4, 0x9#4, 0xA#4, 0xB#4, 0xC#4, 0xD#4, 0xF#4] := by
  simp only [List.mem_cons, List.not_mem_nil, or_false, ← BitVec.toNat_inj]
  unfold classifyFamily8
  split
  case h_10 =>
    simp only [imp_false] at *
    exact iff_of_true nofun (by bv_omega)
  all_goals simp [*, Instr.wf]

/-- Family E has only the key skips, where KEY_SKIPS is true. -/
theorem familyE_refuses_iff : (∀ i, classifyFamilyE f = some i → i.wf cfg = false) ↔
    ¬(cfg.keySkips = true ∧ (f.nn = 0x9E ∨ f.nn = 0xA1)) := by
  rw [← BitVec.toNat_inj, ← BitVec.toNat_inj]
  unfold classifyFamilyE
  split
  case h_1 hnn => simp [hnn, Instr.wf]
  case h_2 hnn => simp [hnn, Instr.wf]
  case h_3 h9E hA1 => exact iff_of_true nofun fun h => h.2.elim h9E hA1

/-- Family F has an instruction for four values of nn. -/
theorem familyF_refuses_iff : (∀ i, classifyFamilyF f = some i → i.wf cfg = false) ↔
    f.nn ∉ [0x07#8, 0x15#8, 0x55#8, 0x65#8] := by
  simp only [List.mem_cons, List.not_mem_nil, or_false, ← BitVec.toNat_inj]
  unfold classifyFamilyF
  split
  case h_5 h07 h15 h55 h65 => exact iff_of_true nofun fun h => h.elim h07 (Or.elim · h15 (Or.elim · h55 h65))
  all_goals simp [*, Instr.wf]

end

/-- Settles O6: the dispatch refuses, in each family, what R113 lists of it. -/
theorem unsupportedWordsAreTheListedOnes : Obligations.UnsupportedWordsAreTheListedOnes := by
  intro cfg ins
  rw [classify_unsupported_iff]
  generalize splitFields ins = f
  unfold classifyFields
  split
  case h_1 hw =>
    have hw : f.w = 0x0 := BitVec.eq_of_toNat_eq hw
    rw [family0_refuses_iff]
    simp [hw]
  case h_9 hw =>
    have hw : f.w = 0x8 := BitVec.eq_of_toNat_eq hw
    rw [family8_refuses_iff]
    simp [hw]
  case h_13 hw =>
    have hw : f.w = 0xE := BitVec.eq_of_toNat_eq hw
    rw [familyE_refuses_iff]
    simp [hw]
  case h_14 hw =>
    have hw : f.w = 0xF := BitVec.eq_of_toNat_eq hw
    rw [familyF_refuses_iff]
    simp [hw]
  case h_6 hw =>
    have hw : f.w = 0x5 := BitVec.eq_of_toNat_eq hw
    simp [hw, Instr.wf, cfg.refusesUnused_iff]
  case h_10 hw =>
    have hw : f.w = 0x9 := BitVec.eq_of_toNat_eq hw
    simp [hw, Instr.wf, cfg.refusesUnused_iff]
  case h_15 =>
    have hw : f.w = 0xB ∨ f.w = 0xC := by
      simp only [imp_false] at *
      bv_omega
    rcases hw with hw | hw <;> simp [hw]
  all_goals
    rename_i hw
    simp [← BitVec.toNat_inj, hw, Instr.wf]

end Sys2Proof

/-! ## The cycle (R117, R118) -/

namespace Sys2Proof.Machine

/-- A fault on the fetch changes `faults` and `halted` alone (R269). -/
theorem frame_haltOnFetch (s : State) (e : Error) : Frame [.faults, .halted] s (s.haltOnFetch e) := by
  intro c hc
  cases c with
  | V | mem => exact fun _ => rfl
  | disp => exact fun _ _ => rfl
  | faults | halted => simp at hc
  | I | pc | stack | DT | ST | key | cfg | draws => rfl

/-- An instruction reports at most one error. -/
theorem faults_of_exec {i : Instr} {s t : State} (h : exec i s = .next t) :
    t.faults = s.faults ∨ ∃ e, t.faults = s.faults ++ [e] := by
  cases ends_of_exec h with
  | haltsInside a => exact .inr ⟨_, rfl⟩
  | reports e _ => exact .inr ⟨e, rfl⟩
  | ordinary _ o => exact .inl o.faults

/-- An instruction that does not halt the machine inside leaves ST, and writes DT only as FX15. -/
theorem timers_of_exec {i : Instr} {s t : State} (h : exec i s = .next t) (ht : t.halted = false) :
    t.ST = s.ST ∧ (t.DT = s.DT ∨ ∃ x, i = .ldDTVx x ∧ t.DT = s.reg x) := by
  cases ends_of_exec h with
  | haltsInside a => cases ht
  | reports e _ => exact ⟨rfl, .inl rfl⟩
  | ordinary _ o => exact ⟨o.sound, o.delay⟩

/-- Settles O13: by the three ways a cycle ends, where a failed fetch and an Unsupported word fetch no instruction, and the
fetched instruction does what `exec` can do. -/
theorem eachCycleExecutesOneInstructionOrReportsOneError :
    Obligations.EachCycleExecutesOneInstructionOrReportsOneError := by
  intro s hs
  rcases step_cases hs with ⟨a, _, hf, he⟩ | ⟨ins, _, hf, hc, he⟩ | ⟨ins, i, _, hf, hc, he⟩
  · refine ⟨_, he, .inr ⟨?_, ⟨_, rfl⟩, (frame_haltOnFetch s _).mono (by simp)⟩, fun ht => by cases ht⟩
    rintro i ⟨_, ins, hf', _⟩
    cases hf.symm.trans hf'
  · refine ⟨_, he, .inr ⟨?_, ⟨_, rfl⟩, ?_⟩, fun _ => ⟨rfl, .inl rfl⟩⟩
    · rintro i ⟨_, ins', hf', hc'⟩
      cases hf.symm.trans hf'
      cases hc.symm.trans hc'
    · exact ((frame_advancePc s).mono (by simp)).trans ((frame_report _ _).mono (by simp))
  · have hi : Fetches s i := ⟨hs, ins, hf, hc⟩
    obtain ⟨t, ht, _⟩ := exec_ends i s.advancePc
    refine ⟨t, he.trans ht, .inl ⟨i, hi, ht, faults_of_exec (s := s.advancePc) ht⟩, fun hh => ?_⟩
    obtain ⟨hST, hDT | ⟨x, rfl, hDT⟩⟩ := timers_of_exec (s := s.advancePc) ht hh
    · exact ⟨hST, .inl hDT⟩
    · exact ⟨hST, .inr ⟨x, hi, hDT⟩⟩

/-- Two bytes at pc that decode to an instruction are its fetch. -/
theorem fetches_of_decode {s : State} {i : Instr} (hs : s.halted = false) (hp : s.pc.toNat + 1 < memSize)
    (h : decode s.cfg [s.byteAt s.pc.toNat, s.byteAt (s.pc.toNat + 1)] = .ok (i, [])) : Fetches s i := by
  obtain ⟨hi, lo, hbytes, hc⟩ := decode_ok h
  cases hbytes
  exact ⟨hs, _, State.fetch16_of_lt hp, hc⟩

/-- Settles O8: the decoded instruction is the one the cycle fetches, and the fetch advance changes pc alone. -/
theorem stepRunsTheDecodedInstruction : Obligations.StepRunsTheDecodedInstruction :=
  fun s _ hs hp hd => ⟨step_of_fetches (fetches_of_decode hs hp hd), s.advancePc_pc, frame_advancePc s⟩

end Sys2Proof.Machine

/-! # Screen and flow (spec/40_screen_and_flow.md): clear, jump, call and return -/

namespace Sys2Proof.Machine

/-! ## Frames of the display and the stack -/

/-- A state that differs only in the display. -/
theorem Frame.of_disp {s t : State} (h : t = { s with disp := t.disp }) : Frame [.disp] s t := by
  intro c hc
  rw [h]
  cases c with
  | disp => simp at hc
  | V | mem => exact fun _ => rfl
  | I | pc | stack | DT | ST | key | faults | halted | cfg | draws => rfl

/-- A state that differs only in pc and the stack. -/
theorem Frame.of_pc_stack {s t : State} (h : t = { s with pc := t.pc, stack := t.stack }) : Frame [.pc, .stack] s t := by
  intro c hc
  rw [h]
  cases c with
  | pc | stack => simp at hc
  | V | mem => exact fun _ => rfl
  | disp => exact fun _ _ => rfl
  | I | DT | ST | key | faults | halted | cfg | draws => rfl

/-! ## Addresses and the capacity of the stack -/

/-- R103: the zero extension keeps the value of the address. -/
@[simp] theorem addr16_toNat (nnn : Addr12) : (addr16 nnn).toNat = nnn.toNat :=
  BitVec.toNat_setWidth_of_le (by decide)

/-- A stack has room when every bound there is exceeds its length; UNBOUNDED sets none (R40). -/
theorem stackFull_eq_false_iff (depth : StackDepth) (n : Nat) :
    stackFull depth n = false ↔ ∀ d, depth = .bounded d → n < d := by
  cases depth with
  | bounded d => simp [stackFull]
  | unbounded => simp [stackFull]

/-- CALL on a stack with room pushes and jumps. -/
theorem execCall_of_room {s : State} (nnn : Addr12) (hroom : ∀ d, s.cfg.stackDepth = .bounded d → s.stack.length < d) :
    execCall nnn s = .next ((s.push s.pc).setPc (addr16 nnn)) := by
  rw [execCall, (stackFull_eq_false_iff _ _).mpr hroom]
  rfl

/-! ## One instruction -/

/-- Settles O15: every cell of the blank display is 0, and the display is all that CLS replaces. -/
theorem clearScreenClearsEveryCell : Obligations.ClearScreenClearsEveryCell :=
  fun _ s => ⟨s.clearDisplay, rfl, Display.pixel_blank, .of_disp rfl⟩

/-- Settles O16: RET on a non-empty stack splits it into the new pc and the new stack. -/
theorem returnPopsTheTopEntry : Obligations.ReturnPopsTheTopEntry :=
  fun _ _ _ _ hs => ⟨_, execRet_cons hs, rfl, rfl, .of_pc_stack rfl⟩

/-- Settles O18: JP writes pc alone, with the zero-extended address. -/
theorem jumpSetsPcExactly : Obligations.JumpSetsPcExactly :=
  fun nnn s => ⟨s.setPc (addr16 nnn), rfl, addr16_toNat nnn, frame_setPc s _⟩

/-- Settles O19: with room, CALL is a push of the pc and a jump. -/
theorem callPushesTheAdvancedPc : Obligations.CallPushesTheAdvancedPc :=
  fun nnn _ hroom => ⟨_, execCall_of_room nnn hroom, rfl, addr16_toNat nnn, .of_pc_stack rfl⟩

/-! ## The cycle from an instruction's own word -/

/-- The word of a well-formed instruction at pc is the fetch of that instruction. -/
theorem fetches_of_encode {s : State} {i : Instr} (hs : s.halted = false) (hf : s.fetch16 s.pc.toNat = .ok (encode i))
    (hw : i.wf s.cfg = true) : Fetches s i :=
  ⟨hs, encode i, hf, classify_of_fields (classifyFields_encode i) hw⟩

/-- RET with a zero unused field is an instruction of every machine (R110). -/
theorem wf_ret_zero (cfg : Config) : (Instr.ret 0).wf cfg = true :=
  (cfg.admitsUnused_iff 0).mpr (.inr rfl)

/-- A CALL cycle on a stack with room: the pc after the CALL is pushed (R144, R315). -/
theorem step_call {s : State} {nnn : Addr12} (h : Fetches s (.call nnn))
    (hroom : ∀ d, s.cfg.stackDepth = .bounded d → s.stack.length < d) :
    step s = .next ((s.push (s.pc + 2)).setPc (addr16 nnn)) :=
  (step_of_fetches h).trans (execCall_of_room (s := s.advancePc) nnn hroom)

/-- A RET cycle on a non-empty stack (R142). -/
theorem step_ret {s : State} {u : Fin 16} {top : Word} {rest : List Word} (h : Fetches s (.ret u))
    (hs : s.stack = top :: rest) : step s = .next { s with pc := top, stack := rest } :=
  (step_of_fetches h).trans (execRet_cons (s := s.advancePc) hs)

/-- A JP cycle changes pc alone: the fetch advance does not show (R143). -/
theorem step_jp {s : State} {nnn : Addr12} (h : Fetches s (.jp nnn)) : step s = .next (s.setPc (addr16 nnn)) :=
  step_of_fetches h

/-- Settles O21: the CALL cycle pushes the advanced pc and leaves memory as it was, so the RET word stands at its target, and
the RET cycle pops that entry. -/
theorem callThenReturnResumesAfterTheCall : Obligations.CallThenReturnResumesAfterTheCall := by
  intro nnn s hs hcall hret hroom
  have hfetch : ((s.push (s.pc + 2)).setPc (addr16 nnn)).fetch16 (addr16 nnn).toNat = .ok (encode (.ret 0)) := by
    rw [addr16_toNat]
    exact (State.fetch16_congr (s := s) rfl rfl _).trans hret
  exact ⟨_, _, step_call (fetches_of_encode hs hcall rfl) hroom, addr16_toNat nnn,
    step_ret (fetches_of_encode hs hfetch (wf_ret_zero _)) rfl, rfl, .of_pc rfl⟩

/-- Settles O22: at the end of a run the target of the jump is pc itself. -/
theorem selfJumpChangesNothing : Obligations.SelfJumpChangesNothing := by
  rintro s ⟨⟨_, hs⟩, nnn, htarget, hword⟩
  rw [step_jp (fetches_of_encode hs hword rfl), htarget]
  rfl

end Sys2Proof.Machine

/-! # Conditional skips (spec/41_skips.md): the condition of a skip, one skip, and the cycle that fetches it -/

namespace Sys2Proof.Machine

/-! ## The condition (R161 to R166) -/

/-- The key test of the model is the latch compared with V[x] (R165). -/
theorem State.keyIs_reg_iff (s : State) (x : Reg) : s.keyIs (s.reg x) = true ↔ KeyPressed s x := by
  unfold State.keyIs KeyPressed
  cases s.key <;> simp

/-- No key is numbered above 15 (D21). -/
theorem not_keyPressed_of_gt {s : State} {x : Reg} (h : 15 < (s.reg x).toNat) : ¬KeyPressed s x := by
  rintro ⟨k, -, hk⟩
  omega

/-- The fetch advance does not show in the condition of a skip. -/
theorem isSkipOn_advancePc {s : State} {i : Instr} {c : Prop} (h : IsSkipOn s i c) : IsSkipOn s.advancePc i c := by
  cases i <;> exact h

/-! ## One skip (R160) -/

/-- A skip is `skipIf` of a test that decides its condition. -/
theorem exec_eq_skipIf {s : State} {i : Instr} {c : Prop} (h : IsSkipOn s i c) :
    ∃ b : Bool, (b = true ↔ c) ∧ exec i s = .next (s.skipIf b) := by
  cases i with
  | seImm x nn | seReg x y _ => exact ⟨_, h ▸ beq_iff_eq, rfl⟩
  | sneImm x nn | sneReg x y _ => exact ⟨_, h ▸ bne_iff_ne, rfl⟩
  | skp x => exact ⟨_, h ▸ s.keyIs_reg_iff x, rfl⟩
  | sknp x =>
    have hnot : (!s.keyIs (s.reg x)) = true ↔ ¬KeyPressed s x := by simp [← s.keyIs_reg_iff]
    exact ⟨_, h ▸ hnot, rfl⟩
  | _ => exact False.elim h

/-- A skip moves pc on by 2 when its condition holds, and does nothing else. -/
theorem exec_skip {s : State} {i : Instr} {c : Prop} [Decidable c] (h : IsSkipOn s i c) :
    ∃ t, exec i s = .next t ∧ t.pc = (if c then s.pc + 2 else s.pc) ∧ Frame [.pc] s t := by
  obtain ⟨b, hb, he⟩ := exec_eq_skipIf h
  exact ⟨_, he, by simp only [State.skipIf_pc, hb], frame_skipIf s b⟩

/-- Settles O23: both are skips, the second on the negated condition. -/
theorem immediateSkipsTestTheRegister : Obligations.ImmediateSkipsTestTheRegister := by
  intro x nn s
  have hsne := exec_skip (s := s) (i := .sneImm x nn) rfl
  simp only [ne_eq, ite_not] at hsne
  exact ⟨exec_skip rfl, hsne⟩

/-- Settles O24: both are skips, the second on the negated condition, and neither reads the unused field. -/
theorem registerSkipsCompareTheRegisters : Obligations.RegisterSkipsCompareTheRegisters := by
  intro x y u s
  have hsne := exec_skip (s := s) (i := .sneReg x y u) rfl
  simp only [ne_eq, ite_not] at hsne
  exact ⟨exec_skip rfl, hsne⟩

/-- Settles O25: both are skips, on the key test and its negation, and a latched key is at most 15. -/
theorem keySkipsTestTheLatch : Obligations.KeySkipsTestTheLatch := by
  classical
  intro x s
  obtain ⟨t, ht, hpc, hframe⟩ := exec_skip (s := s) (i := .skp x) rfl
  obtain ⟨u, hu, hpc', hframe'⟩ := exec_skip (s := s) (i := .sknp x) rfl
  exact ⟨⟨t, ht, hframe, fun hk => hpc.trans (if_pos hk), fun hk => hpc.trans (if_neg hk)⟩,
    ⟨u, hu, hframe', fun hk => hpc'.trans (if_neg (not_not_intro hk)), fun hk => hpc'.trans (if_pos hk)⟩,
    not_keyPressed_of_gt⟩

/-! ## The cycle of a skip -/

/-- An instruction that is fetched starts at 0x0FFE or below. -/
theorem pc_le_of_fetches {s : State} {i : Instr} (h : Fetches s i) : s.pc.toNat ≤ 0x0FFE := by
  obtain ⟨_, ins, hf, _⟩ := h
  exact Nat.le_of_lt_succ (Nat.lt_of_succ_lt_succ (State.fetch16_ok_lt hf))

/-- A fetch above 0x0FFE fails (R72). -/
theorem State.fetch16_of_gt {s : State} {p : Nat} (h : 0x0FFE < p) : ∃ a, s.fetch16 p = .error (.memoryOutOfBounds a) := by
  rcases s.fetch16_cases p with ⟨hp, _⟩ | ⟨_, he⟩ | ⟨_, he⟩
  · exact absurd hp (Nat.not_lt.mpr (Nat.succ_le_succ h))
  · exact ⟨_, he⟩
  · exact ⟨_, he⟩

/-- The cycle of a skip: the fetch advance, and 2 more when the condition holds. -/
theorem step_skip {s : State} {i : Instr} {c : Prop} [Decidable c] (hf : Fetches s i) (hc : IsSkipOn s i c) :
    ∃ t, step s = .next t ∧ t.pc = (if c then s.pc + 4 else s.pc + 2) ∧ Frame [.pc] s t := by
  obtain ⟨t, ht, hpc, hframe⟩ := exec_skip (isSkipOn_advancePc hc)
  rw [State.advancePc_pc, BitVec.add_assoc] at hpc
  exact ⟨t, (step_of_fetches hf).trans ht, hpc, (frame_advancePc s).trans hframe⟩

/-- Settles O26: a fetched skip stands at 0x0FFE or below, so pc does not wrap and ends at most 4 above. -/
theorem skipsAdvancePcByFourExactlyWhenTheirConditionHolds :
    Obligations.SkipsAdvancePcByFourExactlyWhenTheirConditionHolds := by
  classical
  intro s i c hf hc
  obtain ⟨t, ht, hpc, hframe⟩ := step_skip hf hc
  have hle := pc_le_of_fetches hf
  have hbound : t.pc.toNat ≤ 0x1002 := by
    rw [hpc]
    split <;> bv_omega
  exact ⟨t, ht, fun h => hpc.trans (if_pos h), fun h => hpc.trans (if_neg h), hframe, hbound, State.fetch16_of_gt⟩

end Sys2Proof.Machine

/-! # The ALU (spec/42_alu.md): results and flags in numbers, writes that touch registers alone, and the instructions -/

namespace Sys2Proof.Machine

/-! ## Results and flags in numbers (R183, R188 to R192) -/

/-- The sum modulo 256 (R183, R188). -/
@[simp] theorem addResult_toNat (a b : Byte) : (addResult a b).toNat = (a.toNat + b.toNat) % 256 :=
  BitVec.toNat_ofNat ..

/-- The sum from its remainder (R183, R188). -/
theorem addResult_eq (a b : Byte) : addResult a b = BitVec.ofNat 8 ((a.toNat + b.toNat) % 256) :=
  BitVec.eq_of_toNat_eq (by simp)

/-- The difference as a natural remainder, with 256 borrowed in advance (R189, R191). -/
theorem subResult_eq (a b : Byte) : subResult a b = BitVec.ofNat 8 ((a.toNat + 256 - b.toNat) % 256) := by
  apply BitVec.eq_of_toNat_eq
  simp only [subResult, BitVec.toNat_ofInt, BitVec.toNat_ofNat]
  omega

/-- A shift to the right halves (R190). -/
theorem shrResult_eq (a : Byte) : shrResult a = BitVec.ofNat 8 (a.toNat / 2) := by
  apply BitVec.eq_of_toNat_eq
  simp only [shrResult, BitVec.toNat_ushiftRight, BitVec.toNat_ofNat, Nat.shiftRight_eq_div_pow]
  omega

/-- A shift to the left doubles modulo 256 (R192). -/
theorem shlResult_eq (a : Byte) : shlResult a = BitVec.ofNat 8 (2 * a.toNat % 256) := by
  apply BitVec.eq_of_toNat_eq
  simp only [shlResult, BitVec.toNat_shiftLeft, BitVec.toNat_ofNat, Nat.shiftLeft_eq]
  omega

/-- A flag that a comparison decides. -/
theorem flagByte_decide (p : Prop) [Decidable p] : flagByte (decide p) = if p then 1 else 0 := by
  simp [flagByte]

/-- A flag that is one bit of a byte. -/
theorem flagByte_getLsbD (a : Byte) (i : Nat) : flagByte (a.getLsbD i) = BitVec.ofNat 8 (a.toNat / 2 ^ i % 2) := by
  rw [BitVec.getLsbD, Nat.testBit_eq_decide_div_mod_eq, flagByte_decide]
  rcases Nat.mod_two_eq_zero_or_one (a.toNat / 2 ^ i) with h | h <;> simp [h]

/-- The bit that a shift to the right drops is the remainder of the halving (R190). -/
theorem flagByte_shrFlag (a : Byte) : flagByte (shrFlag a) = BitVec.ofNat 8 (a.toNat % 2) := by
  rw [shrFlag, flagByte_getLsbD, Nat.pow_zero, Nat.div_one]

/-- The bit that a shift to the left drops is the high bit (R192). -/
theorem flagByte_shlFlag (a : Byte) : flagByte (shlFlag a) = BitVec.ofNat 8 (a.toNat / 128) := by
  have hbit : a.toNat / 2 ^ 7 % 2 = a.toNat / 128 := by omega
  rw [shlFlag, flagByte_getLsbD, hbit]

/-! ## The write of a result and its flag (R181) -/

/-- Where FLAG_ORDER has the flag last, the result is written first (R181). -/
theorem State.writeResultFlag_of_flagLast {s : State} (x : Reg) (r : Byte) (f : Bool) (h : s.cfg.flagOrder = .flagLast) :
    s.writeResultFlag x r f = (s.setReg x r).setReg VF (flagByte f) := by
  rw [State.writeResultFlag, h]

/-- Where FLAG_ORDER has the result last, the flag is written first (R181). -/
theorem State.writeResultFlag_of_resultLast {s : State} (x : Reg) (r : Byte) (f : Bool)
    (h : s.cfg.flagOrder = .resultLast) :
    s.writeResultFlag x r f = (s.setReg VF (flagByte f)).setReg x r := by
  rw [State.writeResultFlag, h]

/-- What `writeResultFlag` does is write_rf seen from outside. -/
theorem wroteResultFlag (s : State) (x : Reg) (r : Byte) (f : Bool) :
    WroteResultFlag s (s.writeResultFlag x r f) x r (flagByte f) := by
  refine ⟨s.reg_writeResultFlag_of_ne r f, ?_, ?_, ?_, frame_writeResultFlag s x r f⟩
  · intro _ ho
    rw [State.writeResultFlag_of_flagLast x r f ho, State.reg_setReg_same]
  · rintro rfl ho
    rw [State.writeResultFlag_of_resultLast _ r f ho, State.reg_setReg_same]
  · intro q hq
    obtain ⟨hx, hf⟩ := List.ne_and_not_mem_of_not_mem_cons hq
    exact s.reg_writeResultFlag_ne r f hx (List.ne_of_not_mem_cons hf)

/-- The byte that a shift takes, when a number is it under either SHIFT_SOURCE (R190, R192). -/
theorem State.eq_shiftOperand_toNat {s : State} {x y : Reg} {v : Nat}
    (hY : s.cfg.shiftSource = .Y → v = (s.reg y).toNat) (hX : s.cfg.shiftSource = .X → v = (s.reg x).toNat) :
    v = (s.shiftOperand x y).toNat := by
  unfold State.shiftOperand
  split
  · exact hY ‹_›
  · exact hX ‹_›

/-! ## Two cycles of ADD Vx, nn -/

theorem RegFrame.trans {changed : List Reg} {s t u : State} (h : RegFrame changed s t) (h' : RegFrame changed t u) :
    RegFrame changed s u :=
  fun r hr => (h' r hr).trans (h r hr)

/-- A cycle that writes one register changes it and pc. -/
theorem frame_advancePc_setReg (s : State) (x : Reg) (v : Byte) : Frame [.V, .pc] s (s.advancePc.setReg x v) :=
  ((frame_advancePc s).mono (by simp)).trans ((frame_setReg _ x v).mono (by simp))

/-- The fetch advance does not show in the registers. -/
theorem regFrame_advancePc_setReg (s : State) (x : Reg) (v : Byte) : RegFrame [x] s (s.advancePc.setReg x v) :=
  regFrame_setReg s.advancePc x v

/-- A cycle that fetches ADD Vx, nn (R183). -/
theorem step_addImm {s : State} {x : Reg} {nn : Byte} (h : Fetches s (.addImm x nn)) :
    step s = .next (s.advancePc.setReg x (addResult (s.reg x) nn)) :=
  step_of_fetches h

/-- After a cycle that writes one register, the next word is fetched from memory as it was. -/
theorem fetches_after_setReg {s : State} {i : Instr} (x : Reg) (v : Byte) (hs : s.halted = false)
    (hp : s.pc.toNat ≤ 0x0FFE) (hf : s.fetch16 (s.pc.toNat + 2) = .ok (encode i)) (hw : i.wf s.cfg = true) :
    Fetches (s.advancePc.setReg x v) i := by
  refine fetches_of_encode hs ?_ hw
  rw [State.setReg_pc, State.advancePc_pc, toNat_add_two (by omega)]
  exact (State.fetch16_congr (s := s) rfl rfl _).trans hf

/-- Settles O29: the first cycle leaves memory as it was, so the second fetches the next word and adds to the first sum. -/
theorem twoAddImmediatesCompose : Obligations.TwoAddImmediatesCompose := by
  intro x a b s hs hfa hfb
  have ha : Fetches s (.addImm x a) := fetches_of_encode hs hfa rfl
  have hb := fetches_after_setReg x (addResult (s.reg x) a) hs (pc_le_of_fetches ha) hfb rfl
  refine ⟨_, _, step_addImm ha, step_addImm hb, ?_, BitVec.add_assoc s.pc 2 2,
    (regFrame_advancePc_setReg s x _).trans (regFrame_advancePc_setReg _ x _),
    (frame_advancePc_setReg s x _).trans (frame_advancePc_setReg _ x _)⟩
  rw [State.reg_setReg_same, State.reg_setReg_same, addResult_toNat, addResult_toNat, Nat.mod_add_mod]

/-! ## One instruction -/

/-- Settles O27: a write of one register, and 0x6xnn is the word of LD Vx, nn. -/
theorem storeImmediateWritesOneRegister : Obligations.StoreImmediateWritesOneRegister :=
  fun x nn s => ⟨⟨s.setReg x nn, rfl, s.reg_setReg_same x nn, regFrame_setReg s x nn, frame_setReg s x nn⟩,
    fun cfg => classify_encode cfg (.ldImm x nn)⟩

/-- Settles O28: a write of one register, with the sum. -/
theorem addImmediateWrapsWithoutFlag : Obligations.AddImmediateWrapsWithoutFlag :=
  fun x nn s => ⟨_, rfl, by rw [State.reg_setReg_same, addResult_toNat], regFrame_setReg s x _, frame_setReg s x _⟩

/-- Settles O30: each is a write of one register, with the value the bits of the old ones give. -/
theorem assignAndLogicWriteOnlyTheDestination : Obligations.AssignAndLogicWriteOnlyTheDestination :=
  fun x y s =>
    ⟨⟨_, rfl, s.reg_setReg_same x _, regFrame_setReg s x _, frame_setReg s x _⟩,
      ⟨_, rfl, fun k => by rw [State.reg_setReg_same, BitVec.getLsbD_or], regFrame_setReg s x _, frame_setReg s x _⟩,
      ⟨_, rfl, fun k => by rw [State.reg_setReg_same, BitVec.getLsbD_and], regFrame_setReg s x _, frame_setReg s x _⟩,
      ⟨_, rfl, fun k => by rw [State.reg_setReg_same, BitVec.getLsbD_xor], regFrame_setReg s x _, frame_setReg s x _⟩⟩

/-- Settles O31: the write of the sum and its carry. -/
theorem addSetsTheCarry : Obligations.AddSetsTheCarry := by
  intro x y s
  rw [← addResult_eq, ← flagByte_decide]
  exact ⟨_, rfl, wroteResultFlag s x _ _⟩

/-- Settles O32: both are the write of a difference and its no-borrow flag, with the operands in either order. -/
theorem subtractionsSetNoBorrow : Obligations.SubtractionsSetNoBorrow := by
  intro x y s
  simp only [← subResult_eq, ← flagByte_decide]
  exact ⟨⟨_, rfl, wroteResultFlag s x _ _⟩, ⟨_, rfl, wroteResultFlag s x _ _⟩⟩

/-- Settles O33: both are the write of the shifted operand and the bit it loses. -/
theorem shiftsSetTheBitShiftedOut : Obligations.ShiftsSetTheBitShiftedOut := by
  intro x y s v hY hX
  obtain rfl := State.eq_shiftOperand_toNat hY hX
  simp only [← shrResult_eq, ← shlResult_eq, ← flagByte_shrFlag, ← flagByte_shlFlag]
  exact ⟨⟨_, rfl, wroteResultFlag s x _ _⟩, ⟨_, rfl, wroteResultFlag s x _ _⟩⟩

end Sys2Proof.Machine

/-! # Index and draw (spec/43_index_and_draw.md): set index, one draw of a sprite, and the same draw twice -/

namespace Sys2Proof.Machine

/-! ## Set index (R220) -/

theorem frame_setI (s : State) (v : Word) : Frame [.I] s (s.setI v) := by
  intro c hc
  cases c with
  | I => simp at hc
  | V | mem => exact fun _ => rfl
  | disp => exact fun _ _ => rfl
  | pc | stack | DT | ST | key | faults | halted | cfg | draws => rfl

/-- Settles O34: a write of I with the zero-extended address, and 0xAnnn is the word of LD I, nnn. -/
theorem setIndexLoadsTheAddress : Obligations.SetIndexLoadsTheAddress :=
  fun nnn s => ⟨⟨s.setI (addr16 nnn), rfl, addr16_toNat nnn, frame_setI s _⟩, fun cfg => classify_encode cfg (.ldI nnn)⟩

/-! ## The cells of a sprite, with and without the loops (R221 to R225) -/

/-- The display row of a sprite row, by its number (R223). -/
theorem eq_spriteRow_iff (y0 k : Nat) (row : Fin 32) : row = spriteRow y0 k ↔ (y0 + k) % 32 = row.val :=
  Fin.ext_iff.trans eq_comm

/-- A sprite has fewer rows than the display, so no two of them fall on one display row. -/
theorem pairwise_spriteRow_ne (y0 : Nat) (n : Fin 16) :
    (List.range n.val).Pairwise fun j k => spriteRow y0 j ≠ spriteRow y0 k := by
  refine List.pairwise_lt_range.imp_of_mem fun {j k} _ hk hjk heq => ?_
  have hrow : (y0 + k) % 32 = (y0 + j) % 32 := (eq_spriteRow_iff y0 k _).mp heq
  have hkn : k < n.val := List.mem_range.mp hk
  omega

/-- The columns that the inner loop covers, from the first. -/
theorem columnsCover_range_iff (row : Byte) (x0 : Nat) (col : Fin 64) :
    ColumnsCover row x0 (List.range 8) col ↔ ∃ c, c < 8 ∧ x0 + c = col.val ∧ row.getLsbD (7 - c) = true := by
  simp only [ColumnsCover, spriteBit, List.mem_range, and_comm]

/-- The loops of a draw cover the cells that the sprite covers. -/
theorem rowsCover_iff_spriteCovers (s : State) (x y : Reg) (n : Fin 16) (row : Fin 32) (col : Fin 64) :
    RowsCover s (s.spriteX x) (s.spriteY y) (List.range n.val) row col ↔ SpriteCovers s x y n row col := by
  simp only [RowsCover, SpriteCovers, eq_spriteRow_iff, columnsCover_range_iff, List.mem_range, State.spriteX,
    State.spriteY, State.indexed]

/-- Which cells a sprite covers depends on the registers of its place, I and memory alone. -/
theorem spriteCovers_congr {s t : State} {x y : Reg} (hx : t.reg x = s.reg x) (hy : t.reg y = s.reg y) (hI : t.I = s.I)
    (hb : ∀ a, t.byteAt a = s.byteAt a) (n : Fin 16) (row : Fin 32) (col : Fin 64) :
    SpriteCovers t x y n row col ↔ SpriteCovers s x y n row col := by
  simp only [SpriteCovers, hx, hy, hI, hb]

/-! ## One draw -/

/-- A draw whose rows all lie in memory: a cell ends lit if it was lit and is not covered, or the other way round, and the
flag says whether a covered cell was lit (R224). -/
theorem execDrw_of_lt {x y : Reg} {n : Fin 16} {s : State} (h : ∀ k, k < n.val → s.indexed k < memSize) :
    ∃ d hit, execDrw x y n s = .next { s.setReg VF (flagByte hit) with disp := d } ∧
      (∀ row col, Display.pixel d row col = true ↔ (s.pixel row col = true ↔ ¬SpriteCovers s x y n row col)) ∧
      (hit = true ↔ ∃ row col, SpriteCovers s x y n row col ∧ s.pixel row col = true) := by
  obtain ⟨d, hit, hrows, hpixel, hhit⟩ := drawRows_spec s (s.spriteX x) (s.spriteY y) (List.range n.val) s.disp false
    (pairwise_spriteRow_ne _ n) fun k hk => h k (List.mem_range.mp hk)
  simp only [rowsCover_iff_spriteCovers, Bool.false_eq_true, false_or] at hpixel hhit
  exact ⟨d, hit, by rw [execDrw, hrows], hpixel, hhit⟩

/-- A write of VF and of the display changes nothing else. -/
theorem frame_setReg_disp (s : State) (r : Reg) (v : Byte) (d : Display) :
    Frame [.disp, .V] s { s.setReg r v with disp := d } :=
  ((frame_setReg s r v).mono (by simp)).trans ((Frame.of_disp rfl).mono (by simp))

/-- Settles O35: the display and the flag that the loops end with, by the cells that the sprite covers. -/
theorem drawInvertsTheCoveredCells : Obligations.DrawInvertsTheCoveredCells := by
  intro x y n s h
  obtain ⟨d, hit, hexec, hpixel, hhit⟩ := execDrw_of_lt (x := x) (y := y) h
  have hVF : (s.setReg VF (flagByte hit)).reg VF = flagByte hit := s.reg_setReg_same VF _
  refine ⟨_, hexec, fun row col hc => ?_, fun row col hc => ?_, fun hlit => ?_, fun hdark => ?_,
    regFrame_setReg s VF _, frame_setReg_disp s VF _ d⟩
  · exact Bool.eq_iff_iff.mpr ((hpixel row col).trans (by simp [hc]))
  · exact Bool.eq_iff_iff.mpr ((hpixel row col).trans (by simp [hc]))
  · exact hVF.trans (congrArg flagByte (hhit.mpr hlit))
  · exact hVF.trans (congrArg flagByte (Bool.eq_false_iff.mpr (mt hhit.mp hdark)))

/-! ## The same draw twice -/

/-- A component that ends as it was may be dropped from the ones that a frame lets change. -/
theorem Frame.of_cons {c : Component} {changed : List Component} {s t : State} (h : Frame (c :: changed) s t)
    (hc : Same s t c) : Frame changed s t := by
  intro c' hc'
  by_cases he : c' = c
  · exact he ▸ hc
  · exact h c' (List.not_mem_cons_of_ne_of_not_mem he hc')

/-- Settles O36: the first draw leaves all that places the sprite, so the second inverts the same cells back, and the covered
cells that it finds lit are those that the first lit. -/
theorem drawingTwiceRestoresTheDisplay : Obligations.DrawingTwiceRestoresTheDisplay := by
  intro x y n s hx hy h
  obtain ⟨t, ht, hin, hout, _, _, hreg, hframe⟩ := drawInvertsTheCoveredCells x y n s h
  have hI : t.I = s.I := hframe .I (by simp)
  have hcov := spriteCovers_congr (hreg x (by simpa using hx)) (hreg y (by simpa using hy)) hI (hframe .mem (by simp)) n
  have hrows : ∀ k, k < n.val → t.indexed k < memSize := by simpa only [State.indexed, hI] using h
  obtain ⟨u, hu, hin', hout', hlit, hdark, hreg', hframe'⟩ := drawInvertsTheCoveredCells x y n t hrows
  simp only [hcov] at hin' hout' hlit hdark
  have hback : ∀ row col, u.pixel row col = s.pixel row col := by
    intro row col
    by_cases hc : SpriteCovers s x y n row col
    · rw [hin' row col hc, hin row col hc, Bool.not_not]
    · rw [hout' row col hc, hout row col hc]
  have hturned : ∀ row col, (SpriteCovers s x y n row col ∧ t.pixel row col = true) ↔
      (s.pixel row col = false ∧ t.pixel row col = true) := by
    intro row col
    by_cases hc : SpriteCovers s x y n row col
    · simp [hc, hin row col hc]
    · simp [hc, hout row col hc]
  simp only [hturned] at hlit hdark
  exact ⟨t, u, ht, hu, hreg.trans hreg', (hframe.trans hframe').of_cons hback, hlit, hdark⟩

end Sys2Proof.Machine

/-! # Timer and transfer (spec/44_timer_and_transfer.md): the delay timer, the register dump and load, and their round trip -/

namespace Sys2Proof.Machine

/-! ## The delay timer (R240, R241) -/

theorem frame_setDT (s : State) (v : Byte) : Frame [.DT] s (s.setDT v) := by
  intro c hc
  cases c with
  | DT => simp at hc
  | V | mem => exact fun _ => rfl
  | disp => exact fun _ _ => rfl
  | I | pc | stack | ST | key | faults | halted | cfg | draws => rfl

/-- Settles O37: a write of V[x] with DT, and a write of DT with V[x]. -/
theorem delayTimerIsReadAndWritten : Obligations.DelayTimerIsReadAndWritten :=
  fun x s =>
    ⟨⟨s.setReg x s.DT, rfl, s.reg_setReg_same x _, regFrame_setReg s x _, frame_setReg s x _⟩,
      ⟨s.setDT (s.reg x), rfl, s.setDT_DT _, frame_setDT s _⟩⟩

/-! ## Dump and load (R242, R243) -/

/-- Settles O38: a dump inside memory answers the same state with another memory, which is read through the same
configuration. -/
theorem dumpStoresTheRegisters : Obligations.DumpStoresTheRegisters := by
  intro x s h
  obtain ⟨m, hdump, hin, hout⟩ := execDump_of_lt h
  exact ⟨{ s with mem := m }, hdump, hin, hout, .of_mem rfl⟩

/-- A load whose block lies inside memory: each register up to x takes its byte, the registers above x stay, and nothing but
the registers changes (R243). -/
theorem execLoad_of_lt {x : Reg} {s : State} (h : s.indexed x.val < memSize) :
    ∃ V : Vector Byte 16, execLoad x s = .next { s with V := V } ∧
      (∀ r : Reg, r ≤ x → V[r] = s.byteAt (s.indexed r.val)) ∧ (∀ r : Reg, x < r → V[r] = s.reg r) := by
  obtain ⟨V, hV, hin, hout⟩ :=
    loadRegs_ok (regsUpTo x) s fun r hr => State.indexed_lt_of_le ((mem_regsUpTo x r).mp hr) h
  simp only [mem_regsUpTo, Fin.not_le] at hin hout
  exact ⟨V, by rw [execLoad, hV], hin, hout⟩

/-- Settles O39: a load inside memory answers the same state with other registers. -/
theorem loadFillsTheRegisters : Obligations.LoadFillsTheRegisters := by
  intro x s h
  obtain ⟨V, hload, hin, hout⟩ := execLoad_of_lt h
  exact ⟨{ s with V := V }, hload, hin, hout, .of_V rfl⟩

/-! ## The round trip -/

/-- Settles O40: the dump leaves I as it was, so the load reads the bytes that the dump stored. -/
theorem loadAfterDumpReproducesTheRegisters : Obligations.LoadAfterDumpReproducesTheRegisters := by
  intro x s V' h
  obtain ⟨t, hdump, hstored, _, hframe⟩ := dumpStoresTheRegisters x s h
  have hI : t.I = s.I := hframe .I (by simp)
  have hblock : ∀ k, { t with V := V' }.indexed k = s.indexed k := fun k => congrArg (·.toNat + k) hI
  obtain ⟨u, hload, hfilled, habove, hframe'⟩ := loadFillsTheRegisters x { t with V := V' } ((hblock x.val).trans_lt h)
  refine ⟨t, u, hdump, hload, fun r hr => ?_, habove, (Frame.of_V rfl).trans hframe'⟩
  calc u.reg r = t.byteAt (({ t with V := V' } : State).indexed r.val) := hfilled r hr
    _ = t.byteAt (s.indexed r.val) := congrArg t.byteAt (hblock r.val)
    _ = s.reg r := hstored r hr

end Sys2Proof.Machine

/-! # Exceptions and entry points (spec/60_exceptions.md): errors, host calls, timers, and finite and infinite runs -/

namespace Sys2Proof.Machine

/-! ## A cycle that fetches no instruction (R261, R264, R269) -/

/-- A fetch from 0x0FFF up fails with the first address outside memory: its second byte's at 0x0FFF, else its first's. -/
theorem State.fetch16_of_last_le {s : State} {p : Nat} (h : 0x0FFF ≤ p) :
    s.fetch16 p = .error (.memoryOutOfBounds (if p = 0x0FFF then 0x1000 else p)) := by
  split
  · subst p
    exact s.fetch16_last
  · exact State.fetch16_of_ge (show 4096 ≤ p by omega)

/-- A cycle whose fetch fails halts on the fetch (R269). -/
theorem step_of_fetch_error {s : State} {e : Error} (hs : s.halted = false) (hf : s.fetch16 s.pc.toNat = .error e) :
    step s = .next (s.haltOnFetch e) := by
  simp [step, hs, hf]

/-- A cycle that fetches an Unsupported word reports it after the fetch advance (R261, R268). -/
theorem step_of_unsupported {s : State} {ins : Word} {e : DecodeError} (hs : s.halted = false)
    (hf : s.fetch16 s.pc.toNat = .ok ins) (hc : classify s.cfg ins = .error e) :
    step s = .next (s.advancePc.report (.unsupportedOpcode ins)) := by
  simp [step, hs, hf, hc]

/-- An error reported after the fetch advance changes pc and `faults` alone (R268). -/
theorem frame_advancePc_report (s : State) (e : Error) : Frame [.pc, .faults] s (s.advancePc.report e) :=
  ((frame_advancePc s).mono (by simp)).trans ((frame_report _ e).mono (by simp))

/-- Settles O10: the fetch fails, so the step halts on it. -/
theorem fetchOutOfBoundsHalts : Obligations.FetchOutOfBoundsHalts :=
  fun s hs hp => ⟨_, step_of_fetch_error hs (State.fetch16_of_last_le hp), rfl, rfl, frame_haltOnFetch s _⟩

/-- Settles O11: the step is the fetch advance and the report of the word. -/
theorem unsupportedWordIsReported : Obligations.UnsupportedWordIsReported :=
  fun s _ hs hf hc => ⟨_, step_of_unsupported hs hf hc, rfl, rfl, frame_advancePc_report s _⟩

/-! ## RET and CALL at the ends of the stack (R262, R263) -/

/-- CALL on a stack of STACK_DEPTH entries reports StackOverflow. -/
theorem execCall_of_full {s : State} (nnn : Addr12) (h : s.cfg.stackDepth = .bounded s.stack.length) :
    execCall nnn s = .next (s.report (.stackOverflow (encode (.call nnn)))) :=
  if_pos (by simp [h, stackFull])

/-- Settles O17: RET on an empty stack is a report. -/
theorem returnOnEmptyStackReportsUnderflow : Obligations.ReturnOnEmptyStackReportsUnderflow :=
  fun _ s hs => ⟨_, execRet_empty hs, rfl, frame_report s _⟩

/-- Settles O20: CALL on a full stack is a report. -/
theorem callOnFullStackReportsOverflow : Obligations.CallOnFullStackReportsOverflow :=
  fun nnn s hfull => ⟨_, execCall_of_full nnn hfull, rfl, frame_report s _⟩

/-! ## An access outside memory inside an instruction (R264, R269) -/

/-- A rising list splits at any of its members into the smaller ones, the member and the rest. -/
theorem exists_split_of_pairwise_lt {α : Type} [LT α] {l : List α} {a : α} (hl : l.Pairwise (· < ·)) (ha : a ∈ l) :
    ∃ before after, l = before ++ a :: after ∧ ∀ b ∈ before, b < a := by
  obtain ⟨before, after, rfl⟩ := List.append_of_mem ha
  exact ⟨before, after, rfl, fun b hb => (List.pairwise_append.mp hl).2.2 b hb a List.mem_cons_self⟩

/-- The registers of a transfer rise. -/
theorem pairwise_regsUpTo_lt (x : Reg) : (regsUpTo x).Pairwise (· < ·) :=
  List.Pairwise.sublist (List.take_sublist _ _) (show allRegs.Pairwise (· < ·) by decide)

/-- The offset from I of the first address of a block that is outside memory. -/
def State.firstOutside (s : State) : Nat := memSize - s.I.toNat

/-- The first address outside memory of a block at I: I itself, if that is outside. -/
theorem State.indexed_firstOutside (s : State) : s.indexed s.firstOutside = max 4096 s.I.toNat := by
  simp only [State.indexed, State.firstOutside, memSize]
  omega

/-- Every offset below the first one outside memory is inside. -/
theorem State.indexed_lt_iff (s : State) (k : Nat) : s.indexed k < memSize ↔ k < s.firstOutside := by
  simp only [State.indexed, State.firstOutside]
  omega

/-- The registers of a transfer whose block leaves memory, split at the one whose address is the first outside. -/
theorem regsUpTo_split {x : Reg} {s : State} (h : memSize ≤ s.indexed x.val) :
    ∃ before r after, regsUpTo x = before ++ r :: after ∧ (∀ q ∈ before, s.indexed q.val < memSize) ∧
      s.indexed r.val = max 4096 s.I.toNat := by
  have hx : s.firstOutside ≤ x.val := Nat.not_lt.mp (mt (s.indexed_lt_iff x.val).mpr (Nat.not_lt.mpr h))
  obtain ⟨r, hr⟩ : ∃ r : Reg, r.val = s.firstOutside := ⟨⟨_, Nat.lt_of_le_of_lt hx x.isLt⟩, rfl⟩
  obtain ⟨before, after, hsplit, hbefore⟩ := exists_split_of_pairwise_lt (pairwise_regsUpTo_lt x)
    ((mem_regsUpTo x r).mpr (Fin.le_def.mpr (hr ▸ hx)))
  exact ⟨before, r, after, hsplit, fun q hq => (s.indexed_lt_iff q.val).mpr (hr ▸ hbefore q hq),
    hr ▸ s.indexed_firstOutside⟩

/-- A dump whose block leaves memory halts the machine with the first address outside (R242, R269). -/
theorem execDump_of_ge {x : Reg} {s : State} (h : memSize ≤ s.indexed x.val) :
    execDump x s = .next (s.haltInside (.memoryOutOfBounds (max 4096 s.I.toNat))) := by
  obtain ⟨before, r, after, hsplit, hbefore, hr⟩ := regsUpTo_split h
  rw [execDump, hsplit, storeRegs_error before r after s hbefore (hr ▸ le_max_left _ _), hr]

/-- A load whose block leaves memory halts the machine with the first address outside (R243, R269). -/
theorem execLoad_of_ge {x : Reg} {s : State} (h : memSize ≤ s.indexed x.val) :
    execLoad x s = .next (s.haltInside (.memoryOutOfBounds (max 4096 s.I.toNat))) := by
  obtain ⟨before, r, after, hsplit, hbefore, hr⟩ := regsUpTo_split h
  rw [execLoad, hsplit, loadRegs_error before r after s hbefore (hr ▸ le_max_left _ _), hr]

/-- A draw whose rows leave memory halts the machine with the first address outside (R225, R269). -/
theorem execDrw_of_ge {x y : Reg} {n : Fin 16} {s : State} (h : s.firstOutside < n.val) :
    execDrw x y n s = .next (s.haltInside (.memoryOutOfBounds (max 4096 s.I.toNat))) := by
  obtain ⟨before, after, hsplit, hbefore⟩ :=
    exists_split_of_pairwise_lt List.pairwise_lt_range (List.mem_range.mpr h)
  have hout : memSize ≤ s.indexed s.firstOutside := s.indexed_firstOutside ▸ le_max_left _ _
  rw [execDrw, hsplit, drawRows_error s _ _ before s.firstOutside after _ _
    (fun k hk => (s.indexed_lt_iff k).mpr (hbefore k hk)) hout, s.indexed_firstOutside]

/-- Settles O41: each loop passes the addresses inside memory and fails at the first one outside. -/
theorem accessBeyondMemoryHalts : Obligations.AccessBeyondMemoryHalts := by
  intro x y n s
  refine ⟨fun hn hlast => ?_, fun hlast => ⟨?_, ?_⟩⟩
  · have hrow : s.firstOutside < n.val := by simp only [State.firstOutside, memSize]; omega
    exact ⟨_, execDrw_of_ge hrow, rfl, rfl⟩
  · exact ⟨_, execDump_of_ge hlast, rfl, rfl⟩
  · exact ⟨_, execLoad_of_ge hlast, rfl, rfl⟩

/-! ## One host call (R269, R277, R281, R283, R286, R287) -/

/-- A halted machine answers no call but `init`. -/
theorem hostCall_of_halted {s : State} {c : HostCall} (hs : s.halted = true) (hc : c ≠ .init) :
    hostCall c s = .fault .halted := by
  cases c with
  | init => exact absurd rfl hc
  | cycle => simp [hostCall, State.cycle, step_halted hs]
  | loadImage _ _ | decrementTimers _ | setInputKey _ | get _ _ => exact if_pos hs

/-- Settles O12: step and every call but `init` test `halted` first. -/
theorem haltedMachineHasNoStep : Obligations.HaltedMachineHasNoStep :=
  fun _ hs => ⟨step_halted hs, fun _ hc => hostCall_of_halted hs hc⟩

section
variable {s : State} (hs : s.halted = false)
include hs

theorem hostCall_loadImage (bytes : List Byte) (a : Nat) :
    hostCall (.loadImage bytes a) s = .next (s.loadImage bytes a) := by
  simp [hostCall, hs]

theorem hostCall_decrementTimers (amount : Nat) :
    hostCall (.decrementTimers amount) s = .next (s.decrementTimers amount, .ok) := by
  simp [hostCall, hs]

theorem hostCall_setInputKey (key : Option (Fin 16)) :
    hostCall (.setInputKey key) s = .next (s.setInputKey key, .ok) := by
  simp [hostCall, hs]

theorem hostCall_get (row col : Nat) : hostCall (.get row col) s = .next (s, s.get row col) := by
  simp [hostCall, hs]

end

/-- `cycle()` is a step that answers, with its reply. -/
theorem hostCall_cycle {s t : State} (h : step s = .next t) : hostCall .cycle s = .next (t, cycleReply s t) := by
  simp [hostCall, State.cycle, h]

/-- An image that ends inside memory is placed (R286). -/
theorem State.loadImage_of_le {s : State} {bytes : List Byte} {a : Nat} (h : a + bytes.length ≤ memSize) :
    s.loadImage bytes a = (s.pokeBytes a bytes, .ok) :=
  if_neg (Nat.not_lt.mpr h)

/-- An image that ends outside memory is refused and changes nothing (R265, R286). -/
theorem State.loadImage_of_gt {s : State} {bytes : List Byte} {a : Nat} (h : memSize < a + bytes.length) :
    s.loadImage bytes a = (s, .error (.imageTooLarge a bytes.length)) :=
  if_pos h

/-- Settles O56: the two answers of `loadImage`. -/
theorem oversizedImageIsRefused : Obligations.OversizedImageIsRefused := by
  intro bytes a s hs
  rw [hostCall_loadImage hs]
  exact ⟨fun h => ⟨_, congrArg _ (State.loadImage_of_gt h)⟩, fun h => ⟨_, congrArg _ (State.loadImage_of_le h)⟩⟩

/-- Settles O57: an image that fits is placed by `pokeBytes`, in memory alone; one that does not fit leaves the state. -/
theorem imageIsPlacedVerbatim : Obligations.ImageIsPlacedVerbatim := by
  intro bytes a s hs
  rw [hostCall_loadImage hs]
  refine ⟨fun h => ?_, fun h => congrArg _ (State.loadImage_of_gt h)⟩
  obtain ⟨m, hpoke, hin, hout, _⟩ := s.pokeBytes_fits bytes a h
  rw [State.loadImage_of_le h, hpoke]
  exact ⟨{ s with mem := m }, rfl, hin, hout, .of_mem rfl⟩

/-- `setInputKey` changes the latch alone. -/
theorem frame_setInputKey (s : State) (key : Option (Fin 16)) : Frame [.key] s (s.setInputKey key) := by
  intro c hc
  cases c with
  | key => simp at hc
  | V | mem => exact fun _ => rfl
  | disp => exact fun _ _ => rfl
  | I | pc | stack | DT | ST | faults | halted | cfg | draws => rfl

/-- Settles O59: the call writes the latch with its argument. -/
theorem setInputKeySetsTheLatch : Obligations.SetInputKeySetsTheLatch :=
  fun key s hs => ⟨_, hostCall_setInputKey hs key, rfl, frame_setInputKey s key⟩

/-- Settles O60: the bounds that `get` tests are those of the display. -/
theorem getReadsTheCellOrReportsItsBounds : Obligations.GetReadsTheCellOrReportsItsBounds := by
  intro s hs
  simp only [hostCall_get hs, State.get]
  refine ⟨fun row col => ?_, fun row col hout => ?_⟩
  · rw [dif_pos ⟨row.isLt, col.isLt⟩]
  · rw [dif_neg (by omega)]

/-- `decrementTimers` changes the timers alone. -/
theorem frame_decrementTimers (s : State) (amount : Nat) : Frame [.DT, .ST] s (s.decrementTimers amount) := by
  intro c hc
  cases c with
  | DT | ST => simp at hc
  | V | mem => exact fun _ => rfl
  | disp => exact fun _ _ => rfl
  | I | pc | stack | key | faults | halted | cfg | draws => rfl

/-- Settles O46: FX15 is the only cycle that writes a timer, and the host's decrement is subtraction of naturals. -/
theorem timersFallOnlyByTheHostAndStopAtZero : Obligations.TimersFallOnlyByTheHostAndStopAtZero := by
  refine ⟨fun s t h ht => ?_, fun s amount hs => ?_⟩
  · obtain ⟨t', h', _, htimers⟩ := eachCycleExecutesOneInstructionOrReportsOneError s (not_halted_of_step h)
    cases h'.symm.trans h
    obtain ⟨hST, hDT⟩ := htimers ht
    refine ⟨hST, fun hno => hDT.resolve_right fun ⟨x, hx, _⟩ => hno x hx, fun x hx => ?_⟩
    cases (step_of_fetches hx).symm.trans h
    rfl
  · exact ⟨_, hostCall_decrementTimers hs amount, decrementTimer_toNat _ _, decrementTimer_toNat _ _,
      frame_decrementTimers s amount⟩

/-- A cycle that reported nothing returns ok (R287). -/
theorem cycleReply_of_same {s t : State} (h : t.faults = s.faults) : cycleReply s t = .ok := by
  simp [cycleReply, h]

/-- A cycle that reported an error returns it (R287). -/
theorem cycleReply_of_append {s t : State} {e : Error} (h : t.faults = s.faults ++ [e]) : cycleReply s t = .error e := by
  simp [cycleReply, h]

/-- A cycle of a machine that is not halted reports at most one error. -/
theorem step_reports_at_most_one {s : State} (hs : s.halted = false) :
    ∃ t, step s = .next t ∧ (t.faults = s.faults ∨ ∃ e, t.faults = s.faults ++ [e]) := by
  obtain ⟨t, h, ⟨_, _, _, hfaults⟩ | ⟨_, hone, _⟩, _⟩ := eachCycleExecutesOneInstructionOrReportsOneError s hs
  · exact ⟨t, h, hfaults⟩
  · exact ⟨t, h, .inr hone⟩

/-- Settles O14: the reply reads what the step appended to `faults`, which is nothing or one error. -/
theorem cycleReturnsOkOrItsOneError : Obligations.CycleReturnsOkOrItsOneError := by
  intro s hs
  obtain ⟨t, h, hsame | ⟨e, he⟩⟩ := step_reports_at_most_one hs
  · exact ⟨t, _, h, hostCall_cycle h, .inl ⟨cycleReply_of_same hsame, hsame⟩⟩
  · exact ⟨t, _, h, hostCall_cycle h, .inr ⟨e, cycleReply_of_append he, he⟩⟩

/-! ## Runs keep the invariant (R288) -/

/-- `init` establishes the invariant: nothing is listed, stacked or reported, and pc is 0x200 (R310). -/
theorem inv_init (s : State) : Inv s.init := by
  refine ⟨rfl, ?_, by simp [State.init, State.resetWith], fun _ => by simp [State.init, State.resetWith]⟩
  unfold StackFits
  split
  · exact Nat.zero_le _
  · trivial

/-- The bytes of an image keep the invariant (R286). -/
theorem Inv.loadImage {s : State} (h : Inv s) (bytes : List Byte) (a : Nat) : Inv (s.loadImage bytes a).1 := by
  rcases Nat.lt_or_ge memSize (a + bytes.length) with hgt | hle
  · rw [State.loadImage_of_gt hgt]
    exact h
  · obtain ⟨m, hpoke, _, _, hwf⟩ := s.pokeBytes_fits bytes a hle
    obtain ⟨hmem, hrest⟩ := h
    rw [State.loadImage_of_le hle, hpoke]
    exact ⟨hwf hmem, hrest⟩

/-- Every host call keeps the invariant; it does not speak of the timers or the key latch. -/
theorem inv_of_hostCall {c : HostCall} {s t : State} {r : Reply} (h : Inv s) (hc : hostCall c s = .next (t, r)) :
    Inv t := by
  cases c with
  | init =>
    cases hc
    exact inv_init s
  | cycle => exact stepKeepsInv s t h (step_of_cycle hc)
  | loadImage bytes a =>
    have hs := not_halted_of_hostCall (by simp) hc
    have hload : s.loadImage bytes a = (t, r) := Host.Outcome.next.inj ((hostCall_loadImage hs bytes a).symm.trans hc)
    simpa [hload] using h.loadImage bytes a
  | decrementTimers _ | setInputKey _ | get _ _ =>
    have hs := not_halted_of_hostCall (by simp) hc
    simp only [hostCall_decrementTimers hs, hostCall_setInputKey hs, hostCall_get hs] at hc
    cases hc
    exact h

/-- Settles O49, by induction over the calls. -/
theorem runsKeepInv : Obligations.RunsKeepInv := by
  intro calls
  induction calls with
  | nil =>
    intro s t rs h hrun
    cases hrun
    exact h
  | cons c cs ih =>
    intro s t rs h hrun
    obtain ⟨u, _, rs', hcall, hrest, _⟩ := of_hostRun_cons hrun
    exact ih u t rs' (inv_of_hostCall h hcall) hrest

/-! ## Infinite runs (R288) -/

/-- Settles O50, by induction over the position in the run. -/
theorem infiniteRunsKeepInv : Obligations.InfiniteRunsKeepInv := by
  intro calls states replies h hrun k
  induction k with
  | zero => exact h
  | succ k ih => exact inv_of_hostCall ih (hrun k)

/-- The first k calls of an infinite run are a finite run. -/
theorem InfiniteRun.hostRun_firstOf {calls : Nat → HostCall} {states : Nat → State} {replies : Nat → Reply}
    (h : InfiniteRun calls states replies) (k : Nat) :
    hostRun (firstOf calls k) (states 0) = .next (states k, firstOf replies k) := by
  induction k with
  | zero => rfl
  | succ k ih =>
    rw [firstOf_succ, firstOf_succ]
    exact hostRun_concat ih (h k)

/-- The states in which the finite parts of an infinite sequence of calls end are joined by its calls. -/
theorem hostCall_of_hostRun_firstOf {calls : Nat → HostCall} {s t u : State} {k : Nat} {rs rs' : List Reply}
    (ht : hostRun (firstOf calls k) s = .next (t, rs)) (hu : hostRun (firstOf calls (k + 1)) s = .next (u, rs')) :
    ∃ r, hostCall (calls k) t = .next (u, r) := by
  rw [firstOf_succ] at hu
  obtain ⟨t', _, r, ht', hcall, _⟩ := of_hostRun_concat hu
  cases ht.symm.trans ht'
  exact ⟨r, hcall⟩

/-- Settles O51: a finite part of an infinite run grows call by call, and the ends of the finite parts, which the calls
determine, are the states of an infinite run. -/
theorem infiniteRunsAreTheLimitsOfFiniteRuns : Obligations.InfiniteRunsAreTheLimitsOfFiniteRuns := by
  refine ⟨fun calls states replies h k => h.hostRun_firstOf k, fun calls s hparts => ?_⟩
  choose states rs hrun using hparts
  have hstart : states 0 = s := congrArg Prod.fst (Host.Outcome.next.inj (hrun 0)).symm
  choose replies hcall using fun k => hostCall_of_hostRun_firstOf (hrun k) (hrun (k + 1))
  exact ⟨states, replies, hstart, hcall⟩

end Sys2Proof.Machine

/-! # Reset (spec/70_reset_and_hazards.md): the reset values, and the boot -/

namespace Sys2Proof.Machine

/-! ## The reset values (R310, R312) -/

/-- Settles O47: the state after reset is what `init` leaves of itself, and nothing is reported in it. -/
theorem resetMeetsInv : Obligations.ResetMeetsInv :=
  fun cfg => ⟨inv_init (State.resetWith cfg), rfl, rfl⟩

/-- After reset every register is 0. -/
@[simp] theorem reg_resetWith (cfg : Config) (r : Reg) : (State.resetWith cfg).reg r = 0 := by
  simp [State.reg, State.resetWith]

/-- `init` leaves the reset state but for the count of draws (R310, log entry 11). -/
theorem frame_init (s : State) : Frame [.draws] (State.resetWith s.cfg) s.init := by
  intro c hc
  cases c with
  | draws => simp at hc
  | V | mem => exact fun _ => rfl
  | disp => exact fun _ _ => rfl
  | I | pc | stack | DT | ST | key | faults | halted | cfg => rfl

/-- Settles O55: registers and display are those of the reset state, with every register 0 and the display blank. -/
theorem initializeGivesTheResetValues : Obligations.InitializeGivesTheResetValues :=
  fun s => ⟨s.init, rfl, rfl, reg_resetWith s.cfg, rfl, rfl, rfl, rfl, Display.pixel_blank, rfl, rfl, rfl, frame_init s⟩

/-! ## The boot (R313) -/

/-- The run of a call after `init`. -/
theorem hostRun_init_then {c : HostCall} {s t : State} {r : Reply} (h : hostCall c s.init = .next (t, r)) :
    hostRun [.init, c] s = .next (t, [.ok, r]) :=
  hostRun_concat (cs := [.init]) rfl h

/-- R113: 0x0000 is Unsupported, whatever the configuration. -/
theorem classify_zero (cfg : Config) : classify cfg 0x0000 = .error (.unsupported 0x0000) := rfl

/-- With no image the first fetch reads zeroed memory. -/
theorem fetch16_init (s : State) : s.init.fetch16 0x200 = .ok 0x0000 := by
  have hzero : ∀ a, 0x0A0 ≤ a → s.init.byteAt a = 0 := fun _ h => Memory.unlisted_of_outside _ (.inr h)
  rw [State.fetch16_of_lt (by decide), hzero _ (by decide), hzero _ (by decide)]
  rfl

/-- Settles O58: the image that fits is placed verbatim and leaves pc, so the fetch reads its first two bytes; without one the
first cycle fetches 0x0000 and reports it after the fetch advance. -/
theorem bootFetchesTheProgramsFirstWord : Obligations.BootFetchesTheProgramsFirstWord := by
  refine ⟨fun s hi lo rest hlen => ?_, fun s => ?_⟩
  · obtain ⟨hplaced, _⟩ := imageIsPlacedVerbatim (hi :: lo :: rest) 0x200 s.init rfl
    obtain ⟨t, hload, hbytes, _, hframe⟩ := hplaced (by omega)
    have hhi : t.byteAt 0x200 = hi := hbytes 0 (by simp)
    have hlo : t.byteAt (0x200 + 1) = lo := hbytes 1 (by simp)
    refine ⟨t, hostRun_init_then hload, hframe .pc (by simp), ?_⟩
    rw [State.fetch16_of_lt (by decide), hhi, hlo]
  · have hstep := step_of_unsupported (s := s.init) rfl (fetch16_init s) (classify_zero s.cfg)
    have hcycle := hostCall_cycle hstep
    rw [cycleReply_of_append rfl] at hcycle
    exact ⟨_, hostRun_init_then hcycle, rfl, rfl⟩

end Sys2Proof.Machine
